-- ==== Sys2Proof/Word.lean ====
section
/-! DEFINITION. The two word types of the block (00_scope.md R5): an 8-bit datum and a 16-bit address.
Their arithmetic is that of `BitVec`, which wraps modulo the width (10_state.md R31, 41_arithmetic.md R134). -/

namespace Sys2Proof

/-- An 8-bit value: `A`, `X`, `Y`, `S`, the data bus, an opcode or operand byte (R5). -/
abbrev Byte := BitVec 8

/-- A 16-bit value: `PC` and every address (R5, R50). -/
abbrev Addr := BitVec 16

end Sys2Proof
end

