-- ==== Sys2Proof/Config.lean ====
section
/-! DEFINITION. What is fixed for the machine: the parameters of 00_scope.md R6 at this hardware's values, and the
free values of the spec (93_implementation_defined.md U1), which have no body, so that no proof can know them. -/

namespace Sys2Proof.Config

/-- `STACK_PAGE` (R6): the stack page is `0x0100` to `0x01FF`. -/
def stackPage : Addr := 0x0100#16

/-- `VEC_NMI` (R6, R53). -/
def vecNmi : Addr := 0xFFFA#16

/-- `VEC_RESET` (R6, R53). -/
def vecReset : Addr := 0xFFFC#16

/-- `VEC_IRQ` (R6, R53), shared by IRQ and BRK. -/
def vecIrq : Addr := 0xFFFE#16

/-- `INT_CYCLES` (R6, R308): the budget of the NMI and of the IRQ sequence. -/
def intCycles : Nat := 7

/-- `RESET_CYCLES` (R6, decision D2): the budget of the RESET sequence. -/
def resetCycles : Nat := 7

/-- `UNOFFICIAL_CYCLES` (R6, decision D6): the base count of the 105 unofficial bytes. -/
def unofficialCycles : Nat := 2

/-- `DECIMAL_ENABLE` (R6, decision D1): `P.D` selects decimal ADC and SBC. -/
def decimalEnable : Bool := true

/-- What an address that no cell of the memory lists reads as.
DESIGN CHOICE (notes/assumptions/2.md), unsafe: the spec leaves the initial contents of the RAM open (U4, U15). -/
def unwrittenByte : Byte := 0x00#8

/-- Free value (R131, U1): `A` after a decimal ADC or SBC one of whose operands is not valid BCD, for each draw
(notes/assumptions/3.md). -/
opaque freeAccumulator : Nat → Byte

/-- Free value (R131, U1): `P.C` after such an instruction, for each draw. -/
opaque freeCarry : Nat → Bool

/-- Free value (R131, U1): `P.Z` after such an instruction, for each draw. -/
opaque freeZero : Nat → Bool

/-- Free value (R131, U1): `P.N` after such an instruction, for each draw. -/
opaque freeNegative : Nat → Bool

/-- Free value (R131, U1): `P.V` after such an instruction, for each draw. -/
opaque freeOverflow : Nat → Bool

end Sys2Proof.Config
end

