-- ==== Sys2Proof/Machine/Bits.lean ====
section
/-! DEFINITION. The bit-field, extension and byte-order helpers of 00_scope.md R7: `Cat`, `zext_16`, `sext_16`, the two
halves of a 16-bit value, and the page of an address (00_scope.md R12). -/

namespace Sys2Proof

/-- `Cat(h, l)`, the 16-bit value `h * 256 + l` (R7). -/
def cat (h l : Byte) : Addr := h ++ l

/-- `w[15:8]` (R7). -/
def hiByte (w : Addr) : Byte := w.extractLsb' 8 8

/-- `w[7:0]` (R7). -/
def loByte (w : Addr) : Byte := w.extractLsb' 0 8

/-- `zext_16(b)`: b as a 16-bit number, 0 to 255 (R7). -/
def zext16 (b : Byte) : Addr := b.setWidth 16

/-- `sext_16(b)`: two's complement extension to 16 bits (R7). -/
def sext16 (b : Byte) : Addr := b.signExtend 16

/-- The page of an address is its bits 15..8 (R12). -/
def page (a : Addr) : Byte := hiByte a

/-- Two addresses are on different pages exactly when their bits 15..8 differ (R113). -/
def pagesDiffer (a b : Addr) : Bool := page a != page b

end Sys2Proof
end

