-- ==== Sys2Proof/Syntax.lean ====
section
/-! DEFINITION. The instructions as syntax: the 56 official mnemonics of 30_encoding.md R85 and `NOP_UNOFFICIAL`
(49_logic_jump_nop.md R246), each one constructor of `Instr`, its operand forms (R81) being the constructor's argument.
The 256 rows of spec/opcode_table.json are these constructors at their operand forms. -/

namespace Sys2Proof

/-- The 12 addressing modes, by the tags of R81. -/
inductive Mode where
  | imp | imm | zp0 | zpx | zpy | rel | abs | abx | aby | ind | izx | izy
deriving DecidableEq, Repr

/-- An operand that names a byte of memory (shape `Mem` of R104), with its operand bytes as R83 assembles them. -/
inductive MemOperand where
  | zp0 (z : Byte)
  | zpx (z : Byte)
  | zpy (z : Byte)
  | abs (a : Addr)
  | abx (base : Addr)
  | aby (base : Addr)
  | izx (z : Byte)
  | izy (z : Byte)
deriving DecidableEq, Repr

/-- The operand of an instruction that reads a byte (R119): shape `Imm` or `Mem` of R104. -/
inductive ReadOperand where
  | imm (b : Byte)
  | mem (m : MemOperand)
deriving DecidableEq, Repr

/-- The operand of a shift or rotate (R140): register A (Implicit mode, shape `Implied` of R104) or a byte of memory. -/
inductive ShiftOperand where
  | acc
  | mem (m : MemOperand)
deriving DecidableEq, Repr

/-- The operand of JMP (R245): an address (ABS) or a pointer to one (IND). -/
inductive JumpOperand where
  | abs (a : Addr)
  | ind (ptr : Addr)
deriving DecidableEq, Repr

/-- The instructions, in the order of R85. A branch carries its displacement byte (R82, R83), JSR its target address,
and an unofficial opcode its own byte. -/
inductive Instr where
  | adc (op : ReadOperand)
  | sbc (op : ReadOperand)
  | asl (op : ShiftOperand)
  | lsr (op : ShiftOperand)
  | rol (op : ShiftOperand)
  | ror (op : ShiftOperand)
  | cmp (op : ReadOperand)
  | cpx (op : ReadOperand)
  | cpy (op : ReadOperand)
  | bcc (d : Byte)
  | bcs (d : Byte)
  | beq (d : Byte)
  | bne (d : Byte)
  | bmi (d : Byte)
  | bpl (d : Byte)
  | bvc (d : Byte)
  | bvs (d : Byte)
  | pha
  | php
  | pla
  | plp
  | jsr (target : Addr)
  | rts
  | brk
  | rti
  | clc
  | sec
  | cli
  | sei
  | cld
  | sed
  | clv
  | lda (op : ReadOperand)
  | ldx (op : ReadOperand)
  | ldy (op : ReadOperand)
  | sta (m : MemOperand)
  | stx (m : MemOperand)
  | sty (m : MemOperand)
  | tax
  | txa
  | tay
  | tya
  | tsx
  | txs
  | inx
  | iny
  | dex
  | dey
  | inc (m : MemOperand)
  | dec (m : MemOperand)
  | and (op : ReadOperand)
  | ora (op : ReadOperand)
  | eor (op : ReadOperand)
  | bit (m : MemOperand)
  | nop
  | jmp (op : JumpOperand)
  | nopUnofficial (opcode : Byte)
deriving DecidableEq, Repr

/-- The addressing mode of a memory operand (R81). -/
def MemOperand.mode : MemOperand → Mode
  | .zp0 _ => .zp0
  | .zpx _ => .zpx
  | .zpy _ => .zpy
  | .abs _ => .abs
  | .abx _ => .abx
  | .aby _ => .aby
  | .izx _ => .izx
  | .izy _ => .izy

/-- The addressing mode of a read operand (R81). -/
def ReadOperand.mode : ReadOperand → Mode
  | .imm _ => .imm
  | .mem m => m.mode

/-- The addressing mode of a shift operand (R81, R140). -/
def ShiftOperand.mode : ShiftOperand → Mode
  | .acc => .imp
  | .mem m => m.mode

/-- The addressing mode of a jump operand (R81, R245). -/
def JumpOperand.mode : JumpOperand → Mode
  | .abs _ => .abs
  | .ind _ => .ind

/-- The number of operand bytes a mode consumes (R81). -/
def Mode.operandBytes : Mode → Nat
  | .imp => 0
  | .imm | .zp0 | .zpx | .zpy | .rel | .izx | .izy => 1
  | .abs | .abx | .aby | .ind => 2

/-- The addressing mode of an instruction (R81, R86). -/
def Instr.mode : Instr → Mode
  | .adc op | .sbc op | .cmp op | .cpx op | .cpy op => op.mode
  | .lda op | .ldx op | .ldy op | .and op | .ora op | .eor op => op.mode
  | .asl op | .lsr op | .rol op | .ror op => op.mode
  | .sta m | .stx m | .sty m | .inc m | .dec m | .bit m => m.mode
  | .bcc _ | .bcs _ | .beq _ | .bne _ | .bmi _ | .bpl _ | .bvc _ | .bvs _ => .rel
  | .jsr _ => .abs
  | .jmp op => op.mode
  | .pha | .php | .pla | .plp | .rts | .brk | .rti => .imp
  | .clc | .sec | .cli | .sei | .cld | .sed | .clv => .imp
  | .tax | .txa | .tay | .tya | .tsx | .txs => .imp
  | .inx | .iny | .dex | .dey | .nop | .nopUnofficial _ => .imp

/-- The length of an instruction in bytes: its opcode and its operand bytes (R80, R81). -/
def Instr.length (i : Instr) : Nat := 1 + i.mode.operandBytes

end Sys2Proof
end

