-- ==== Sys2Proof/WellFormed.lean ====
section
/-! DEFINITION. Which operand forms each mnemonic has: the modes that its own rule lists (files 41 to 49 of the spec).
A term outside these lists is no instruction of the block, and the decoder never answers with one. -/

namespace Sys2Proof

/-- IMM, ZP0, ZPX, ABS, ABX, ABY, IZX, IZY (R132, R133, R151, R200, R240, R241, R242). -/
def aluModes : List Mode := [.imm, .zp0, .zpx, .abs, .abx, .aby, .izx, .izy]

/-- IMP (on A), ZP0, ZPX, ABS, ABX (R140). -/
def shiftModes : List Mode := [.imp, .zp0, .zpx, .abs, .abx]

/-- IMM, ZP0, ABS (R152, R153). -/
def indexCompareModes : List Mode := [.imm, .zp0, .abs]

/-- IMM, ZP0, ZPY, ABS, ABY (R201). -/
def ldxModes : List Mode := [.imm, .zp0, .zpy, .abs, .aby]

/-- IMM, ZP0, ZPX, ABS, ABX (R202). -/
def ldyModes : List Mode := [.imm, .zp0, .zpx, .abs, .abx]

/-- ZP0, ZPX, ABS, ABX, ABY, IZX, IZY: no immediate store (R203). -/
def staModes : List Mode := [.zp0, .zpx, .abs, .abx, .aby, .izx, .izy]

/-- ZP0, ZPY, ABS (R204). -/
def stxModes : List Mode := [.zp0, .zpy, .abs]

/-- ZP0, ZPX, ABS (R205). -/
def styModes : List Mode := [.zp0, .zpx, .abs]

/-- ZP0, ZPX, ABS, ABX: no accumulator form (R224, R225). -/
def incDecModes : List Mode := [.zp0, .zpx, .abs, .abx]

/-- ZP0, ABS (R243). -/
def bitModes : List Mode := [.zp0, .abs]

/-- The 105 unofficial opcode bytes in the order in which R88 lists them. -/
def unofficialOpcodes : List Byte :=
  [0x02#8, 0x03#8, 0x04#8, 0x07#8, 0x0B#8, 0x0C#8, 0x0F#8, 0x12#8, 0x13#8, 0x14#8, 0x17#8, 0x1A#8, 0x1B#8, 0x1C#8, 0x1F#8] ++
  [0x22#8, 0x23#8, 0x27#8, 0x2B#8, 0x2F#8, 0x32#8, 0x33#8, 0x34#8, 0x37#8, 0x3A#8, 0x3B#8, 0x3C#8, 0x3F#8, 0x42#8, 0x43#8] ++
  [0x44#8, 0x47#8, 0x4B#8, 0x4F#8, 0x52#8, 0x53#8, 0x54#8, 0x57#8, 0x5A#8, 0x5B#8, 0x5C#8, 0x5F#8, 0x62#8, 0x63#8, 0x64#8] ++
  [0x67#8, 0x6B#8, 0x6F#8, 0x72#8, 0x73#8, 0x74#8, 0x77#8, 0x7A#8, 0x7B#8, 0x7C#8, 0x7F#8, 0x80#8, 0x82#8, 0x83#8, 0x87#8] ++
  [0x89#8, 0x8B#8, 0x8F#8, 0x92#8, 0x93#8, 0x97#8, 0x9B#8, 0x9C#8, 0x9E#8, 0x9F#8, 0xA3#8, 0xA7#8, 0xAB#8, 0xAF#8, 0xB2#8] ++
  [0xB3#8, 0xB7#8, 0xBB#8, 0xBF#8, 0xC2#8, 0xC3#8, 0xC7#8, 0xCB#8, 0xCF#8, 0xD2#8, 0xD3#8, 0xD4#8, 0xD7#8, 0xDA#8, 0xDB#8] ++
  [0xDC#8, 0xDF#8, 0xE2#8, 0xE3#8, 0xE7#8, 0xEB#8, 0xEF#8, 0xF2#8, 0xF3#8, 0xF4#8, 0xF7#8, 0xFA#8, 0xFB#8, 0xFC#8, 0xFF#8]

/-- The operand form is one the mnemonic has, and an unofficial opcode is one of the 105 (R86, R88). -/
def Instr.wellFormed : Instr → Bool
  | .adc op | .sbc op | .cmp op | .lda op | .and op | .ora op | .eor op => aluModes.contains op.mode
  | .asl op | .lsr op | .rol op | .ror op => shiftModes.contains op.mode
  | .cpx op | .cpy op => indexCompareModes.contains op.mode
  | .ldx op => ldxModes.contains op.mode
  | .ldy op => ldyModes.contains op.mode
  | .sta m => staModes.contains m.mode
  | .stx m => stxModes.contains m.mode
  | .sty m => styModes.contains m.mode
  | .inc m | .dec m => incDecModes.contains m.mode
  | .bit m => bitModes.contains m.mode
  | .nopUnofficial b => unofficialOpcodes.contains b
  | .bcc _ | .bcs _ | .beq _ | .bne _ | .bmi _ | .bpl _ | .bvc _ | .bvs _ => true
  | .jsr _ | .jmp _ => true
  | .pha | .php | .pla | .plp | .rts | .brk | .rti => true
  | .clc | .sec | .cli | .sei | .cld | .sed | .clv => true
  | .tax | .txa | .tay | .tya | .tsx | .txs => true
  | .inx | .iny | .dex | .dey | .nop => true

end Sys2Proof
end

