-- ==== Sys2Proof/Decode.lean ====
section
/-! DEFINITION. The opcode map (30_encoding.md R86 to R88): the decoder, written from the map by opcode byte (R87), and
after it the encoder, written from the map by mnemonic and mode (R86). The opcode byte alone fixes the length (R84). -/

namespace Sys2Proof

/-- What an opcode byte selects (R80, R102): an instruction with no operand byte, one operand byte, two operand bytes
(low then high, R82), or the defined one-byte no-op of an unofficial byte (R88). -/
inductive Entry where
  | implied (i : Instr)
  | byte (f : Byte → Instr)
  | word (f : Addr → Instr)
  | unofficial

/-- The operand bytes of an entry (R81, R84). -/
def Entry.operandBytes : Entry → Nat
  | .implied _ | .unofficial => 0
  | .byte _ => 1
  | .word _ => 2

namespace OpcodeMap

/-- A read instruction with a memory operand. -/
def rd (f : ReadOperand → Instr) (m : MemOperand) : Instr := f (.mem m)

/-- A shift or rotate with a memory operand. -/
def sh (f : ShiftOperand → Instr) (m : MemOperand) : Instr := f (.mem m)

/-- IMP. -/
def imp (i : Instr) : Entry := .implied i

/-- IMM: the operand byte is the operand. -/
def imm (f : ReadOperand → Instr) : Entry := .byte fun b => f (.imm b)

/-- ZP0. -/
def zp0 (f : MemOperand → Instr) : Entry := .byte fun z => f (.zp0 z)

/-- ZPX. -/
def zpx (f : MemOperand → Instr) : Entry := .byte fun z => f (.zpx z)

/-- ZPY. -/
def zpy (f : MemOperand → Instr) : Entry := .byte fun z => f (.zpy z)

/-- REL: the operand byte is the displacement. -/
def rel (f : Byte → Instr) : Entry := .byte f

/-- ABS. -/
def abs (f : MemOperand → Instr) : Entry := .word fun a => f (.abs a)

/-- ABX. -/
def abx (f : MemOperand → Instr) : Entry := .word fun a => f (.abx a)

/-- ABY. -/
def aby (f : MemOperand → Instr) : Entry := .word fun a => f (.aby a)

/-- IZX. -/
def izx (f : MemOperand → Instr) : Entry := .byte fun z => f (.izx z)

/-- IZY. -/
def izy (f : MemOperand → Instr) : Entry := .byte fun z => f (.izy z)

/-- JSR ABS, JMP ABS and JMP IND: the 16-bit operand itself. -/
def wordOf (f : Addr → Instr) : Entry := .word f

/-- An unofficial byte, `-` in R87. -/
def un : Entry := .unofficial

/-- Row `h` of the R87 map: the entries of the opcode bytes `h * 16` to `h * 16 + 15`, in order. -/
def row : Nat → List Entry
  | 0 =>
    [imp .brk, izx (rd .ora), un, un, un, zp0 (rd .ora), zp0 (sh .asl), un,
     imp .php, imm .ora, imp (.asl .acc), un, un, abs (rd .ora), abs (sh .asl), un]
  | 1 =>
    [rel .bpl, izy (rd .ora), un, un, un, zpx (rd .ora), zpx (sh .asl), un,
     imp .clc, aby (rd .ora), un, un, un, abx (rd .ora), abx (sh .asl), un]
  | 2 =>
    [wordOf .jsr, izx (rd .and), un, un, zp0 .bit, zp0 (rd .and), zp0 (sh .rol), un,
     imp .plp, imm .and, imp (.rol .acc), un, abs .bit, abs (rd .and), abs (sh .rol), un]
  | 3 =>
    [rel .bmi, izy (rd .and), un, un, un, zpx (rd .and), zpx (sh .rol), un,
     imp .sec, aby (rd .and), un, un, un, abx (rd .and), abx (sh .rol), un]
  | 4 =>
    [imp .rti, izx (rd .eor), un, un, un, zp0 (rd .eor), zp0 (sh .lsr), un,
     imp .pha, imm .eor, imp (.lsr .acc), un, wordOf (fun a => .jmp (.abs a)), abs (rd .eor), abs (sh .lsr), un]
  | 5 =>
    [rel .bvc, izy (rd .eor), un, un, un, zpx (rd .eor), zpx (sh .lsr), un,
     imp .cli, aby (rd .eor), un, un, un, abx (rd .eor), abx (sh .lsr), un]
  | 6 =>
    [imp .rts, izx (rd .adc), un, un, un, zp0 (rd .adc), zp0 (sh .ror), un,
     imp .pla, imm .adc, imp (.ror .acc), un, wordOf (fun a => .jmp (.ind a)), abs (rd .adc), abs (sh .ror), un]
  | 7 =>
    [rel .bvs, izy (rd .adc), un, un, un, zpx (rd .adc), zpx (sh .ror), un,
     imp .sei, aby (rd .adc), un, un, un, abx (rd .adc), abx (sh .ror), un]
  | 8 =>
    [un, izx .sta, un, un, zp0 .sty, zp0 .sta, zp0 .stx, un,
     imp .dey, un, imp .txa, un, abs .sty, abs .sta, abs .stx, un]
  | 9 =>
    [rel .bcc, izy .sta, un, un, zpx .sty, zpx .sta, zpy .stx, un,
     imp .tya, aby .sta, imp .txs, un, un, abx .sta, un, un]
  | 10 =>
    [imm .ldy, izx (rd .lda), imm .ldx, un, zp0 (rd .ldy), zp0 (rd .lda), zp0 (rd .ldx), un,
     imp .tay, imm .lda, imp .tax, un, abs (rd .ldy), abs (rd .lda), abs (rd .ldx), un]
  | 11 =>
    [rel .bcs, izy (rd .lda), un, un, zpx (rd .ldy), zpx (rd .lda), zpy (rd .ldx), un,
     imp .clv, aby (rd .lda), imp .tsx, un, abx (rd .ldy), abx (rd .lda), aby (rd .ldx), un]
  | 12 =>
    [imm .cpy, izx (rd .cmp), un, un, zp0 (rd .cpy), zp0 (rd .cmp), zp0 .dec, un,
     imp .iny, imm .cmp, imp .dex, un, abs (rd .cpy), abs (rd .cmp), abs .dec, un]
  | 13 =>
    [rel .bne, izy (rd .cmp), un, un, un, zpx (rd .cmp), zpx .dec, un,
     imp .cld, aby (rd .cmp), un, un, un, abx (rd .cmp), abx .dec, un]
  | 14 =>
    [imm .cpx, izx (rd .sbc), un, un, zp0 (rd .cpx), zp0 (rd .sbc), zp0 .inc, un,
     imp .inx, imm .sbc, imp .nop, un, abs (rd .cpx), abs (rd .sbc), abs .inc, un]
  | 15 =>
    [rel .beq, izy (rd .sbc), un, un, un, zpx (rd .sbc), zpx .inc, un,
     imp .sed, aby (rd .sbc), un, un, un, abx (rd .sbc), abx .inc, un]
  | _ => []

end OpcodeMap

/-- The opcode table: every byte has an entry (R102). -/
def entryOf (opcode : Byte) : Entry :=
  (OpcodeMap.row (opcode.toNat / 16)).getD (opcode.toNat % 16) .unofficial

/-- Why a list of bytes holds no whole instruction. Every byte value is an opcode (R89), so the one reason is that bytes
are missing. -/
inductive DecodeError where
  /-- There is no byte at all. -/
  | noOpcode
  /-- The list ends before the operand bytes of this opcode do. -/
  | missingOperand (opcode : Byte)
deriving DecidableEq, Repr

/-- The instruction that a list of bytes begins with, and the bytes after it (R80, R82, R102). -/
def decode : List Byte → Except DecodeError (Instr × List Byte)
  | [] => .error .noOpcode
  | opcode :: rest =>
    match entryOf opcode, rest with
    | .implied i, rest => .ok (i, rest)
    | .unofficial, rest => .ok (.nopUnofficial opcode, rest)
    | .byte f, b :: rest => .ok (f b, rest)
    | .word f, lo :: hi :: rest => .ok (f (cat hi lo), rest)
    | .byte _, [] => .error (.missingOperand opcode)
    | .word _, [] => .error (.missingOperand opcode)
    | .word _, [_] => .error (.missingOperand opcode)

/-- Byte `k` of an instruction whose bits are numbered from the least significant bit of its first byte. -/
def tableByte (nbits w k : Nat) : Byte := BitVec.ofNat 8 ((w % 2 ^ nbits) >>> (8 * k))

/-- The first three bytes of such an instruction, three being the longest length (R80); bits from `nbits` up are 0. -/
def tableBytes (nbits w : Nat) : List Byte :=
  [tableByte nbits w 0, tableByte nbits w 1, tableByte nbits w 2]

/-- The instruction the decoder reads from those bytes. -/
def decodeTableWord (nbits w : Nat) : Option Instr :=
  match decode (tableBytes nbits w) with
  | .ok (i, _) => some i
  | .error _ => none

/-! The encoder, from the rows of R86. -/

/-- The filled cells of the R86 row of ADC SBC CMP LDA AND ORA EOR, by mode: IMM, ZP0, ZPX, ABS, ABX, ABY, IZX, IZY. -/
def aluRow (imm zp0 zpx abs abx aby izx izy : Byte) : Mode → Option Byte
  | .imm => some imm
  | .zp0 => some zp0
  | .zpx => some zpx
  | .abs => some abs
  | .abx => some abx
  | .aby => some aby
  | .izx => some izx
  | .izy => some izy
  | _ => none

/-- The filled cells of the R86 row of ASL LSR ROL ROR, by mode: IMP, ZP0, ZPX, ABS, ABX. -/
def shiftRow (imp zp0 zpx abs abx : Byte) : Mode → Option Byte
  | .imp => some imp
  | .zp0 => some zp0
  | .zpx => some zpx
  | .abs => some abs
  | .abx => some abx
  | _ => none

/-- The filled cells of the R86 row of CPX CPY, by mode: IMM, ZP0, ABS. -/
def indexCompareRow (imm zp0 abs : Byte) : Mode → Option Byte
  | .imm => some imm
  | .zp0 => some zp0
  | .abs => some abs
  | _ => none

/-- The filled cells of the R86 row of LDX, by mode: IMM, ZP0, ZPY, ABS, ABY. -/
def ldxRow (imm zp0 zpy abs aby : Byte) : Mode → Option Byte
  | .imm => some imm
  | .zp0 => some zp0
  | .zpy => some zpy
  | .abs => some abs
  | .aby => some aby
  | _ => none

/-- The filled cells of the R86 row of LDY, by mode: IMM, ZP0, ZPX, ABS, ABX. -/
def ldyRow (imm zp0 zpx abs abx : Byte) : Mode → Option Byte
  | .imm => some imm
  | .zp0 => some zp0
  | .zpx => some zpx
  | .abs => some abs
  | .abx => some abx
  | _ => none

/-- The filled cells of the R86 row of STA, by mode: ZP0, ZPX, ABS, ABX, ABY, IZX, IZY. -/
def staRow (zp0 zpx abs abx aby izx izy : Byte) : Mode → Option Byte
  | .zp0 => some zp0
  | .zpx => some zpx
  | .abs => some abs
  | .abx => some abx
  | .aby => some aby
  | .izx => some izx
  | .izy => some izy
  | _ => none

/-- The filled cells of the R86 row of STX, by mode: ZP0, ZPY, ABS. -/
def stxRow (zp0 zpy abs : Byte) : Mode → Option Byte
  | .zp0 => some zp0
  | .zpy => some zpy
  | .abs => some abs
  | _ => none

/-- The filled cells of the R86 row of STY, by mode: ZP0, ZPX, ABS. -/
def styRow (zp0 zpx abs : Byte) : Mode → Option Byte
  | .zp0 => some zp0
  | .zpx => some zpx
  | .abs => some abs
  | _ => none

/-- The filled cells of the R86 row of INC DEC, by mode: ZP0, ZPX, ABS, ABX. -/
def incDecRow (zp0 zpx abs abx : Byte) : Mode → Option Byte
  | .zp0 => some zp0
  | .zpx => some zpx
  | .abs => some abs
  | .abx => some abx
  | _ => none

/-- The filled cells of the R86 row of BIT, by mode: ZP0, ABS. -/
def bitRow (zp0 abs : Byte) : Mode → Option Byte
  | .zp0 => some zp0
  | .abs => some abs
  | _ => none

/-- The filled cells of the R86 row of JMP, by mode: ABS, IND. -/
def jmpRow (abs ind : Byte) : Mode → Option Byte
  | .abs => some abs
  | .ind => some ind
  | _ => none

/-- The opcode byte of a mnemonic in a mode (R86), of an unofficial byte itself (R88); none where the cell is empty. -/
def Instr.opcode : Instr → Option Byte
  | .adc op => aluRow 0x69#8 0x65#8 0x75#8 0x6D#8 0x7D#8 0x79#8 0x61#8 0x71#8 op.mode
  | .sbc op => aluRow 0xE9#8 0xE5#8 0xF5#8 0xED#8 0xFD#8 0xF9#8 0xE1#8 0xF1#8 op.mode
  | .asl op => shiftRow 0x0A#8 0x06#8 0x16#8 0x0E#8 0x1E#8 op.mode
  | .lsr op => shiftRow 0x4A#8 0x46#8 0x56#8 0x4E#8 0x5E#8 op.mode
  | .rol op => shiftRow 0x2A#8 0x26#8 0x36#8 0x2E#8 0x3E#8 op.mode
  | .ror op => shiftRow 0x6A#8 0x66#8 0x76#8 0x6E#8 0x7E#8 op.mode
  | .cmp op => aluRow 0xC9#8 0xC5#8 0xD5#8 0xCD#8 0xDD#8 0xD9#8 0xC1#8 0xD1#8 op.mode
  | .cpx op => indexCompareRow 0xE0#8 0xE4#8 0xEC#8 op.mode
  | .cpy op => indexCompareRow 0xC0#8 0xC4#8 0xCC#8 op.mode
  | .bcc _ => some 0x90#8
  | .bcs _ => some 0xB0#8
  | .beq _ => some 0xF0#8
  | .bne _ => some 0xD0#8
  | .bmi _ => some 0x30#8
  | .bpl _ => some 0x10#8
  | .bvc _ => some 0x50#8
  | .bvs _ => some 0x70#8
  | .pha => some 0x48#8
  | .php => some 0x08#8
  | .pla => some 0x68#8
  | .plp => some 0x28#8
  | .jsr _ => some 0x20#8
  | .rts => some 0x60#8
  | .brk => some 0x00#8
  | .rti => some 0x40#8
  | .clc => some 0x18#8
  | .sec => some 0x38#8
  | .cli => some 0x58#8
  | .sei => some 0x78#8
  | .cld => some 0xD8#8
  | .sed => some 0xF8#8
  | .clv => some 0xB8#8
  | .lda op => aluRow 0xA9#8 0xA5#8 0xB5#8 0xAD#8 0xBD#8 0xB9#8 0xA1#8 0xB1#8 op.mode
  | .ldx op => ldxRow 0xA2#8 0xA6#8 0xB6#8 0xAE#8 0xBE#8 op.mode
  | .ldy op => ldyRow 0xA0#8 0xA4#8 0xB4#8 0xAC#8 0xBC#8 op.mode
  | .sta m => staRow 0x85#8 0x95#8 0x8D#8 0x9D#8 0x99#8 0x81#8 0x91#8 m.mode
  | .stx m => stxRow 0x86#8 0x96#8 0x8E#8 m.mode
  | .sty m => styRow 0x84#8 0x94#8 0x8C#8 m.mode
  | .tax => some 0xAA#8
  | .txa => some 0x8A#8
  | .tay => some 0xA8#8
  | .tya => some 0x98#8
  | .tsx => some 0xBA#8
  | .txs => some 0x9A#8
  | .inx => some 0xE8#8
  | .iny => some 0xC8#8
  | .dex => some 0xCA#8
  | .dey => some 0x88#8
  | .inc m => incDecRow 0xE6#8 0xF6#8 0xEE#8 0xFE#8 m.mode
  | .dec m => incDecRow 0xC6#8 0xD6#8 0xCE#8 0xDE#8 m.mode
  | .and op => aluRow 0x29#8 0x25#8 0x35#8 0x2D#8 0x3D#8 0x39#8 0x21#8 0x31#8 op.mode
  | .ora op => aluRow 0x09#8 0x05#8 0x15#8 0x0D#8 0x1D#8 0x19#8 0x01#8 0x11#8 op.mode
  | .eor op => aluRow 0x49#8 0x45#8 0x55#8 0x4D#8 0x5D#8 0x59#8 0x41#8 0x51#8 op.mode
  | .bit m => bitRow 0x24#8 0x2C#8 m.mode
  | .nop => some 0xEA#8
  | .jmp op => jmpRow 0x4C#8 0x6C#8 op.mode
  | .nopUnofficial b => if unofficialOpcodes.contains b then some b else none

/-- The operand byte or bytes of a memory operand, a 16-bit address low byte first (R82). -/
def MemOperand.bytes : MemOperand → List Byte
  | .zp0 z | .zpx z | .zpy z | .izx z | .izy z => [z]
  | .abs a | .abx a | .aby a => [loByte a, hiByte a]

/-- The operand bytes of a read operand (R82). -/
def ReadOperand.bytes : ReadOperand → List Byte
  | .imm b => [b]
  | .mem m => m.bytes

/-- The operand bytes of a shift operand (R82). -/
def ShiftOperand.bytes : ShiftOperand → List Byte
  | .acc => []
  | .mem m => m.bytes

/-- The operand bytes of a jump operand (R82). -/
def JumpOperand.bytes : JumpOperand → List Byte
  | .abs a | .ind a => [loByte a, hiByte a]

/-- The operand bytes of an instruction (R82). -/
def Instr.operandBytes : Instr → List Byte
  | .adc op | .sbc op | .cmp op | .cpx op | .cpy op => op.bytes
  | .lda op | .ldx op | .ldy op | .and op | .ora op | .eor op => op.bytes
  | .asl op | .lsr op | .rol op | .ror op => op.bytes
  | .sta m | .stx m | .sty m | .inc m | .dec m | .bit m => m.bytes
  | .bcc d | .bcs d | .beq d | .bne d | .bmi d | .bpl d | .bvc d | .bvs d => [d]
  | .jsr a => [loByte a, hiByte a]
  | .jmp op => op.bytes
  | .pha | .php | .pla | .plp | .rts | .brk | .rti => []
  | .clc | .sec | .cli | .sei | .cld | .sed | .clv => []
  | .tax | .txa | .tay | .tya | .tsx | .txs => []
  | .inx | .iny | .dex | .dey | .nop | .nopUnofficial _ => []

/-- The bytes of an instruction, at ascending addresses (R80, R82); no bytes for a term that is no instruction. -/
def encode (i : Instr) : List Byte :=
  match i.opcode with
  | some opcode => opcode :: i.operandBytes
  | none => []

end Sys2Proof
end

