-- ==== Sys2Proof/Machine/State.lean ====
section
/-! DEFINITION. All state of the block (10_state.md): the register file (R20), the controller and counter state (R32), the
host's memory (20_memory.md R50, the flat RAM of decision D17), and two fields of the model's own: the bus accesses of the
latest tick (R61, R120) and the number of free values drawn so far. State is plain data. -/

namespace Sys2Proof.Machine

/-- The six stored flags of `P` (R25, R26). Bits 4 and 5 are not stored. -/
structure Status where
  /-- C, Carry, bit 0. -/
  c : Bool
  /-- Z, Zero, bit 1. -/
  z : Bool
  /-- I, Interrupt-disable, bit 2. -/
  i : Bool
  /-- D, Decimal, bit 3. -/
  d : Bool
  /-- V, Overflow, bit 6. -/
  v : Bool
  /-- N, Negative, bit 7. -/
  n : Bool
deriving DecidableEq, Repr

/-- The controller's states, by the source's names (R35, R300). -/
inductive Ctl where
  | running | servicingReset | servicingNmi | servicingIrq
deriving DecidableEq, Repr

/-- One bus access (R9): every access moves one byte. -/
inductive BusAccess where
  | read (a : Addr)
  | write (a : Addr) (v : Byte)
deriving DecidableEq, Repr

/-- Memory: address and byte pairs in the canonical form of `Memory.wf`; an address it does not list reads as
`Config.unwrittenByte`. -/
abbrev Memory := List Host.Cell

/-- The state of the block and of the flat RAM behind its bus. -/
structure State where
  /-- `A`, the accumulator (R20). -/
  a : Byte
  /-- `X`, index register (R20). -/
  x : Byte
  /-- `Y`, index register (R20). -/
  y : Byte
  /-- `S`, the stack pointer, an offset into the stack page (R20, R22). -/
  sp : Byte
  /-- `P`, the status register (R20, R25). -/
  p : Status
  /-- `PC`, the program counter (R20, R23). -/
  pc : Addr
  /-- `remaining`, the cycles of the current budget not yet consumed (R32, R33). -/
  remaining : Nat
  /-- `total`, the 64-bit count of ticks since power-on (R32, R34). -/
  total : BitVec 64
  /-- `ctl`, which kind of budget is being consumed (R32, R35). -/
  ctl : Ctl
  /-- `reset_pending`, the RESET latch (R32, R36). -/
  resetPending : Bool
  /-- `nmi_pending`, the NMI latch (R32, R37). -/
  nmiPending : Bool
  /-- `irq_line`, the present level of the IRQ input (R32, R38). -/
  irqLine : Bool
  /-- The contents of the flat 64 KiB RAM behind the bus (R50, R51, decision D17). -/
  mem : Memory
  /-- The bus accesses of the latest tick, oldest first (R61, R120). The model's own field: what the host sees at its bus. -/
  bus : List BusAccess
  /-- How many free values have been drawn (R131, U1). The model's own field; it indexes the free values of `Config`. -/
  freeDraws : Nat
deriving DecidableEq, Repr

/-- The faults of the block: none. The block raises no fault of any kind (R309, R52): it has no illegal opcode, no
misaligned or failing access, no arithmetic, stack or privilege trap. Nobody can raise one. -/
inductive Fault where
deriving DecidableEq, Repr

/-- The refusals of the model. -/
inductive Refusal where
  /-- An arm of `exec` for an instruction that has no meaning yet. No arm raises it: every instruction has its meaning.
  Safe. -/
  | notModelled (mnemonic : String)
  /-- The bytes fetched for this opcode byte hold no whole instruction. Raised by `executeOne` if the decoder fails;
  the fetch reads as many operand bytes as the opcode byte asks for (R84), so this never happens
  (`Sys2Proof.Laws.decode_fetchInstr`). Safe. -/
  | undecodable (opcode : Byte)
deriving DecidableEq, Repr

/-- The flags as RESET leaves them: I is 1 (R41); the other five have no value in the spec.
DESIGN CHOICE (notes/assumptions/1.md), unsafe: those five are 0. -/
def Status.reset : Status := { c := false, z := false, i := true, d := false, v := false, n := false }

/-- Power-on, before the first RESET (R40): the controller state as the spec gives it.
DESIGN CHOICE (notes/assumptions/1.md), unsafe: the registers and flags, which the spec leaves open, are 0. -/
def State.powerOn : State :=
  { a := 0x00#8
    x := 0x00#8
    y := 0x00#8
    sp := 0x00#8
    p := { c := false, z := false, i := false, d := false, v := false, n := false }
    pc := 0x0000#16
    remaining := 0
    total := 0#64
    ctl := .running
    resetPending := false
    nmiPending := false
    irqLine := false
    mem := []
    bus := []
    freeDraws := 0 }

/-- The machine right after reset: power-on, then `triggerReset()`, then the seven ticks of the RESET budget (R41, R301).
`PC` is the word at the RESET vector of a memory that lists nothing, I is 1, the controller is at an instruction boundary
with nothing pending, and seven ticks have been counted (R34). What the spec leaves open has the value it had at power-on
(`State.powerOn`, notes/assumptions/1.md). -/
def State.reset : State :=
  { State.powerOn with
    p := Status.reset
    pc := Config.unwrittenByte ++ Config.unwrittenByte
    total := 7#64 }

end Sys2Proof.Machine
end

