-- ==== Sys2Proof/Machine/Flags.lean ====
section
/-! DEFINITION. Every computation of flags: the status byte (10_state.md R26 to R30), the adder (41_arithmetic.md R130,
R131), the shifts and rotates (42_shift_rotate.md R141 to R144) and the compare (43_compare.md R150). -/

namespace Sys2Proof.Machine

/-- `PushedP(b)`, the byte `N V 1 b D I Z C` (R29). -/
def pushedP (b : Bool) (p : Status) : Byte :=
  BitVec.ofBool p.n ++ BitVec.ofBool p.v ++ 1#1 ++ BitVec.ofBool b ++ BitVec.ofBool p.d ++ BitVec.ofBool p.i ++
    BitVec.ofBool p.z ++ BitVec.ofBool p.c

/-- The value of `P` read as a byte: bit 5 is 1 and bit 4 is 0 (R26). -/
def Status.toByte (p : Status) : Byte := pushedP false p

/-- `LoadP(v)`: the six flags from bits 0, 1, 2, 3, 6, 7 of a pulled byte; its bits 4 and 5 are discarded (R30). -/
def loadP (v : Byte) : Status :=
  { c := v.getLsbD 0
    z := v.getLsbD 1
    i := v.getLsbD 2
    d := v.getLsbD 3
    v := v.getLsbD 6
    n := v.getLsbD 7 }

/-- `SetZN(v)` (R28). -/
def setZN (v : Byte) (p : Status) : Status := { p with z := v == 0, n := v.getLsbD 7 }

/-- What the adder answers: the result, the carry or not-borrow, and the signed overflow. -/
structure AdderResult where
  r : Byte
  carry : Bool
  v : Bool
deriving DecidableEq, Repr

/-- The source's signed-overflow test, the AND formed first (R130, decision D13). -/
def overflowTest (a m r : Byte) : Bool := (~~~(a ^^^ m)) &&& (a ^^^ r) &&& 0x80#8 != 0#8

/-- `AddBinary(a, m, c)` (R130). -/
def addBinary (a m : Byte) (c : Bool) : AdderResult :=
  let t := a.toNat + m.toNat + c.toNat
  let r := BitVec.ofNat 8 t
  { r := r, carry := t.testBit 8, v := overflowTest a m r }

/-- A byte is valid BCD when both its halves are at most 9 (R12). -/
def validBcd (b : Byte) : Bool := b.toNat / 16 ≤ 9 && b.toNat % 16 ≤ 9

/-- `dec(b) = 10 * b[7:4] + b[3:0]` (R131). -/
def decOf (b : Byte) : Nat := 10 * (b.toNat / 16) + b.toNat % 16

/-- `bcd(n) = 16 * (n div 10) + (n mod 10)` (R131). -/
def bcdOf (n : Nat) : Byte := BitVec.ofNat 8 (16 * (n / 10) + n % 10)

/-- `AddDecimal(a, m, c)` for valid BCD operands (R131). -/
def addDecimal (a m : Byte) (c : Bool) : AdderResult :=
  let n := decOf a + decOf m + c.toNat
  let r := bcdOf (n % 100)
  { r := r, carry := decide (100 ≤ n), v := overflowTest a m r }

/-- `SubDecimal(a, m, c)` for valid BCD operands (R131); the remainder modulo 100 is non-negative. -/
def subDecimal (a m : Byte) (c : Bool) : AdderResult :=
  let n : Int := decOf a - decOf m - (1 - c.toNat)
  let r := bcdOf (n % 100).toNat
  { r := r, carry := decide (0 ≤ n), v := overflowTest a (m ^^^ 0xFF#8) r }

/-- `P.C <- carry; P.V <- v; A <- r; SetZN(r)` (R132, R133). -/
def writeAdder (q : AdderResult) (s : State) : State :=
  { s with a := q.r, p := setZN q.r { s.p with c := q.carry, v := q.v } }

/-- An operand that is not valid BCD: `A` and the flags C, Z, N, V take free values, all else stays determined
(R131, U1; notes/assumptions/3.md). -/
def drawAdder (s : State) : State :=
  { s with
    a := Config.freeAccumulator s.freeDraws
    p := { s.p with
      c := Config.freeCarry s.freeDraws
      z := Config.freeZero s.freeDraws
      n := Config.freeNegative s.freeDraws
      v := Config.freeOverflow s.freeDraws }
    freeDraws := s.freeDraws + 1 }

/-- ADC and SBC choose by D and `DECIMAL_ENABLE` between the binary adder and the decimal one, which has a result for
valid BCD operands only (R131, R132, R133). -/
def arith (binary decimal : Byte → Byte → Bool → AdderResult) (m : Byte) (s : State) : State :=
  if s.p.d && Config.decimalEnable then
    if validBcd s.a && validBcd m then writeAdder (decimal s.a m s.p.c) s else drawAdder s
  else writeAdder (binary s.a m s.p.c) s

/-- The binary SBC adds the complement of the operand (R133, decision D25). -/
def subBinary (a m : Byte) (c : Bool) : AdderResult := addBinary a (m ^^^ 0xFF#8) c

/-- What a shift or rotate answers: the result and the bit shifted out. -/
structure ShiftResult where
  r : Byte
  carry : Bool
deriving DecidableEq, Repr

/-- ASL (R141): bit 0 of the result is 0; the carry in is not used. -/
def aslByte (v : Byte) (_c : Bool) : ShiftResult := { r := v <<< 1, carry := v.getLsbD 7 }

/-- LSR (R142): bit 7 of the result is 0; the carry in is not used. -/
def lsrByte (v : Byte) (_c : Bool) : ShiftResult := { r := v >>> 1, carry := v.getLsbD 0 }

/-- ROL (R143): the old carry enters bit 0. -/
def rolByte (v : Byte) (c : Bool) : ShiftResult :=
  { r := v <<< 1 ||| (BitVec.ofBool c).setWidth 8, carry := v.getLsbD 7 }

/-- ROR (R144): the old carry enters bit 7. -/
def rorByte (v : Byte) (c : Bool) : ShiftResult :=
  { r := v >>> 1 ||| ((BitVec.ofBool c).setWidth 8 <<< 7), carry := v.getLsbD 0 }

/-- `Compare(reg, M)` (R150): an unsigned comparison, equality, and bit 7 of the 8-bit difference. -/
def compareFlags (reg m : Byte) (p : Status) : Status :=
  { p with c := decide (m.toNat ≤ reg.toNat), z := reg == m, n := (reg - m).getLsbD 7 }

/-- BIT (R243): Z from `A & M`, N and V from bits 7 and 6 of the memory byte. -/
def bitFlags (a m : Byte) (p : Status) : Status :=
  { p with z := a &&& m == 0, n := m.getLsbD 7, v := m.getLsbD 6 }

end Sys2Proof.Machine
end

