-- ==== Sys2Proof/Machine/Memory.lean ====
section
/-! DEFINITION. The flat RAM behind the bus (20_memory.md R51, decision D17): reading and writing one byte, and the one
canonical form that makes equal memories equal lists. -/

namespace Sys2Proof.Machine

/-- The canonical form: addresses strictly rise, every address is one of the 65,536 (R50), and no cell holds what an
unlisted address reads as. -/
abbrev Memory.wf (m : Memory) : Prop :=
  m.Pairwise (fun c d => c.1 < d.1) ∧ ∀ c ∈ m, c.1 < 65536 ∧ c.2 ≠ Config.unwrittenByte

/-- The byte at an address: the cell that lists it, or what an unlisted address reads as. -/
def Memory.read (m : Memory) (a : Addr) : Byte :=
  match m.find? (fun c => c.1 == a.toNat) with
  | some c => c.2
  | none => Config.unwrittenByte

/-- Put a cell before the first cell of a higher address. -/
def Memory.insert (m : Memory) (c : Host.Cell) : Memory :=
  match m with
  | [] => [c]
  | d :: rest => if c.1 < d.1 then c :: d :: rest else d :: Memory.insert rest c

/-- Write one byte: the old cell of the address goes, and the new one is listed unless it holds what an unlisted address
reads as. -/
def Memory.write (m : Memory) (a : Addr) (v : Byte) : Memory :=
  let without := m.filter (fun c => c.1 != a.toNat)
  if v = Config.unwrittenByte then without else Memory.insert without (a.toNat, v)

/-- Write bytes at ascending addresses, which wrap modulo 65536 (R24). -/
def Memory.writeBytes (m : Memory) (a : Addr) : List Byte → Memory
  | [] => m
  | v :: vs => Memory.writeBytes (m.write a v) (a + 1) vs

end Sys2Proof.Machine
end

