-- ==== Sys2Proof/Machine/Ops.lean ====
section
/-! DEFINITION. The named operations over the registers, the bus and the stack: one bus read, one bus write (00_scope.md R9),
`Read16` (20_memory.md R55), push and pull (R57 to R59), taking an interrupt (60_exceptions.md R304), returning from one
(45_stack_subroutine.md R177), and the RESET sequence (60_exceptions.md R301). -/

namespace Sys2Proof.Machine

/-- `MemRead(addr, 1)`: the byte the bus returns, and the state in which the access has been made (R9). -/
def memRead (a : Addr) (s : State) : Byte × State :=
  (s.mem.read a, { s with bus := s.bus ++ [.read a] })

/-- `MemWrite(addr, 1, v)` (R9). -/
def memWrite (a : Addr) (v : Byte) (s : State) : State :=
  { s with mem := s.mem.write a v, bus := s.bus ++ [.write a v] }

/-- `Read16(addr)`: two byte reads, the low byte first (R55, R54). -/
def read16 (a : Addr) (s : State) : Addr × State :=
  let lo := memRead a s
  let hi := memRead (a + 1) lo.2
  (cat hi.1 lo.1, hi.2)

/-- The stack location that an offset names (R22). -/
def stackAddr (offset : Byte) : Addr := Config.stackPage + zext16 offset

/-- `Push(v)`: write at `0x0100 + S`, then decrement `S` modulo 256 (R57). -/
def push (v : Byte) (s : State) : State :=
  let s := memWrite (stackAddr s.sp) v s
  { s with sp := s.sp - 1 }

/-- `Pull()`: increment `S` modulo 256, then read at `0x0100 + S` (R58). -/
def pull (s : State) : Byte × State :=
  let s := { s with sp := s.sp + 1 }
  memRead (stackAddr s.sp) s

/-- A 16-bit value is pushed high byte first (R59). -/
def push16 (w : Addr) (s : State) : State := push (loByte w) (push (hiByte w) s)

/-- A 16-bit value is pulled low byte first (R59). -/
def pull16 (s : State) : Addr × State :=
  let lo := pull s
  let hi := pull lo.2
  (cat hi.1 lo.1, hi.2)

/-- `EnterInterrupt(vector, b)`: taking NMI, IRQ or BRK (R304). `PC` and `P` are saved on the stack, I becomes 1, and
`PC` is the word at the vector. -/
def enterInterrupt (vector : Addr) (b : Bool) (s : State) : State :=
  let s := push16 s.pc s
  let s := push (pushedP b s.p) s
  let s := { s with p := { s.p with i := true } }
  let target := read16 vector s
  { target.2 with pc := target.1 }

/-- The return: pull `P`, then `PC` low, then `PC` high, and resume there with no adjustment (R177, R312). -/
def returnFromInterrupt (s : State) : State :=
  let status := pull s
  let resume := pull16 { status.2 with p := loadP status.1 }
  { resume.2 with pc := resume.1 }

/-- The RESET sequence (R301): nothing is pushed, the old budget is replaced, a latched NMI is discarded. -/
def resetSequence (s : State) : State :=
  let s := { s with resetPending := false, nmiPending := false, p := { s.p with i := true } }
  let target := read16 Config.vecReset s
  { target.2 with pc := target.1, remaining := Config.resetCycles, ctl := .servicingReset }

/-- The NMI sequence at a boundary (R305). -/
def nmiSequence (s : State) : State :=
  let s := enterInterrupt Config.vecNmi false { s with nmiPending := false }
  { s with remaining := Config.intCycles, ctl := .servicingNmi }

/-- The IRQ sequence at a boundary (R306); the level is not changed. -/
def irqSequence (s : State) : State :=
  let s := enterInterrupt Config.vecIrq false s
  { s with remaining := Config.intCycles, ctl := .servicingIrq }

/-- Load the count of an instruction into the budget (R118). -/
def charge (cycles : Nat) (s : State) : State := { s with remaining := cycles }

/-- An instruction ends: the next state, its count loaded into the budget (R101, R118). -/
def finish (cycles : Nat) (s : State) : Host.Outcome State Fault Refusal := .next (charge cycles s)

end Sys2Proof.Machine
end

