-- ==== Sys2Proof/Machine/Control.lean ====
section
/-! DEFINITION. What the host may do to the block between two ticks: the three control inputs (60_exceptions.md R302),
`totalCycles()` (40_fetch_decode_addressing.md R122), and writing the RAM behind the bus, as a loader does before RESET
(70_reset_and_hazards.md R342). None of them is a step of the block. -/

namespace Sys2Proof.Machine

/-- `triggerReset()`: one RESET edge, held in its latch (R302, R36). -/
def triggerReset (s : State) : State := { s with resetPending := true }

/-- `triggerNMI()`: one NMI edge, held in its latch (R302, R37). -/
def triggerNmi (s : State) : State := { s with nmiPending := true }

/-- `setIRQLine(active)`: the last level given (R302, R38). -/
def setIrqLine (active : Bool) (s : State) : State := { s with irqLine := active }

/-- `totalCycles()` (R122, R34). -/
def totalCycles (s : State) : BitVec 64 := s.total

/-- The host puts bytes into the RAM at ascending addresses (R342, R63). -/
def hostWrite (a : Addr) (bytes : List Byte) (s : State) : State := { s with mem := s.mem.writeBytes a bytes }

end Sys2Proof.Machine
end

