-- ==== Sys2Proof/Machine/Cycles.lean ====
section
/-! DEFINITION. The cycle counts of 30_encoding.md R86 by operand form, and the dynamic penalties of
40_fetch_decode_addressing.md R118: `cycles = base + page-cross penalty + branch penalty`. The rows of R86 that share a
kind (read, store, read-modify-write) share their counts. Counts of instructions with one form stand in their meanings. -/

namespace Sys2Proof.Machine

/-- Base count of a read instruction (LDA, LDX, LDY, ADC, SBC, AND, ORA, EOR, CMP, CPX, CPY, BIT) by operand form (R86). -/
def readBase : ReadOperand → Nat
  | .imm _ => 2
  | .mem (.zp0 _) => 3
  | .mem (.zpx _) | .mem (.zpy _) => 4
  | .mem (.abs _) | .mem (.abx _) | .mem (.aby _) => 4
  | .mem (.izx _) => 6
  | .mem (.izy _) => 5

/-- The entries that carry the `+` flag of R86: read instructions in ABX, ABY and IZY, and no others. -/
def readPagePenalty : ReadOperand → Bool
  | .mem (.abx _) | .mem (.aby _) | .mem (.izy _) => true
  | .imm _ | .mem (.zp0 _) | .mem (.zpx _) | .mem (.zpy _) | .mem (.abs _) | .mem (.izx _) => false

/-- Cycles of a read instruction (R118). -/
def readCycles (op : ReadOperand) (cross : Bool) : Nat :=
  readBase op + (readPagePenalty op && cross).toNat

/-- Cycles of a store (STA, STX, STY), never with a page-cross penalty (R86, R203). -/
def storeCycles : MemOperand → Nat
  | .zp0 _ => 3
  | .zpx _ | .zpy _ | .abs _ => 4
  | .abx _ | .aby _ => 5
  | .izx _ | .izy _ => 6

/-- Cycles of a read-modify-write on memory (ASL, LSR, ROL, ROR, INC, DEC), never with a page-cross penalty (R86, R140,
R224). No mnemonic of this kind has ABY, IZX or IZY: the counts given to those terms, which are no instructions, are
ABX's. -/
def rmwCycles : MemOperand → Nat
  | .zp0 _ => 5
  | .zpx _ | .zpy _ | .abs _ => 6
  | .abx _ | .aby _ | .izx _ | .izy _ => 7

/-- Cycles of a branch: base 2, one more if taken, a further one if the target is on another page than the next
instruction (R118, R160). -/
def branchCycles (taken cross : Bool) : Nat := if taken then (if cross then 4 else 3) else 2

end Sys2Proof.Machine
end

