-- ==== Sys2Proof/Machine/Operands.lean ====
section
/-! DEFINITION. The addressing-mode resolver (40_fetch_decode_addressing.md R105 to R116) over instructions whose operand
bytes have been fetched, the operand value (R119), and the shapes of the instructions that use them: read, store,
read-modify-write on A or memory, and branch. -/

namespace Sys2Proof.Machine

/-- What the resolver answers for a memory operand: the effective address, the page-cross indicator, and the state in
which its pointer reads have been made (R104, R105). -/
structure Resolved where
  addr : Addr
  cross : Bool
  after : State

/-- The 16-bit pointer in page 0 at offset `p`, low byte first; the second byte wraps within page 0 (R115, R116). -/
def zeroPageWord (p : Byte) (s : State) : Addr × State :=
  let lo := memRead (zext16 p) s
  let hi := memRead (zext16 (p + 1)) lo.2
  (cat hi.1 lo.1, hi.2)

/-- An indexed address and whether the addition crosses a page (R112, R113, R116). -/
def indexed (base : Addr) (index : Byte) (after : State) : Resolved :=
  let a := base + zext16 index
  { addr := a, cross := pagesDiffer a base, after := after }

/-- `Resolve(mode)` for the eight modes that answer an address (R108, R109, R111, R112, R115, R116). -/
def resolve (m : MemOperand) (s : State) : Resolved :=
  match m with
  | .zp0 z => { addr := zext16 z, cross := false, after := s }
  | .zpx z => { addr := zext16 (z + s.x), cross := false, after := s }
  | .zpy z => { addr := zext16 (z + s.y), cross := false, after := s }
  | .abs a => { addr := a, cross := false, after := s }
  | .abx base => indexed base s.x s
  | .aby base => indexed base s.y s
  | .izx z =>
    let p := zeroPageWord (z + s.x) s
    { addr := p.1, cross := false, after := p.2 }
  | .izy z =>
    let p := zeroPageWord z s
    indexed p.1 s.y p.2

/-- `Resolve` for the operand of JMP (R111, R114): in IND mode the high byte comes from the pointer's own page. -/
def resolveJump (op : JumpOperand) (s : State) : Resolved :=
  match op with
  | .abs a => { addr := a, cross := false, after := s }
  | .ind ptr =>
    let lo := memRead ptr s
    let hi := memRead (cat (hiByte ptr) (loByte ptr + 1)) lo.2
    { addr := cat hi.1 lo.1, cross := false, after := hi.2 }

/-- An operand's byte, the page-cross indicator of its mode, and the state in which all its reads have been made. -/
structure OperandValue where
  value : Byte
  cross : Bool
  after : State

/-- `OperandValue(op)` after `Resolve` (R119): no bus access for an immediate, one read of the effective address
otherwise. -/
def operandValue (op : ReadOperand) (s : State) : OperandValue :=
  match op with
  | .imm b => { value := b, cross := false, after := s }
  | .mem m =>
    let q := resolve m s
    let v := memRead q.addr q.after
    { value := v.1, cross := q.cross, after := v.2 }

/-- An instruction that reads a byte and then only changes registers and flags. -/
def readInstr (op : ReadOperand) (sem : Byte → State → State) (s : State) : Host.Outcome State Fault Refusal :=
  let q := operandValue op s
  finish (readCycles op q.cross) (sem q.value q.after)

/-- A store: one write of the effective address, no read of it (R203 to R205). -/
def storeInstr (m : MemOperand) (v : Byte) (s : State) : Host.Outcome State Fault Refusal :=
  let q := resolve m s
  finish (storeCycles m) (memWrite q.addr v q.after)

/-- INC and DEC: one read and one write of the effective address, then Z and N (R224, R225). -/
def modifyInstr (f : Byte → Byte) (m : MemOperand) (s : State) : Host.Outcome State Fault Refusal :=
  let q := resolve m s
  let v := memRead q.addr q.after
  let r := f v.1
  let s := memWrite q.addr r v.2
  finish (rmwCycles m) { s with p := setZN r s.p }

/-- The flags of a shift or rotate: C is the bit shifted out, Z and N come from the result (R140). -/
def shiftFlags (q : ShiftResult) (p : Status) : Status := setZN q.r { p with c := q.carry }

/-- The four shifts and rotates (R140): on A in Implicit mode, with 2 cycles, else one read and one write of the
effective address. -/
def shiftInstr (f : Byte → Bool → ShiftResult) (op : ShiftOperand) (s : State) : Host.Outcome State Fault Refusal :=
  match op with
  | .acc =>
    let q := f s.a s.p.c
    finish 2 { s with a := q.r, p := shiftFlags q s.p }
  | .mem m =>
    let t := resolve m s
    let v := memRead t.addr t.after
    let q := f v.1 s.p.c
    let s := memWrite t.addr q.r v.2
    finish (rmwCycles m) { s with p := shiftFlags q s.p }

/-- `Branch(cond, op)` (R160): `PC` on entry is the address of the instruction following the branch. -/
def branch (cond : Bool) (d : Byte) (s : State) : Host.Outcome State Fault Refusal :=
  let target := s.pc + sext16 d
  if cond then finish (branchCycles true (pagesDiffer target s.pc)) { s with pc := target }
  else finish (branchCycles false false) s

end Sys2Proof.Machine
end

