-- ==== Sys2Proof/Machine/Arithmetic.lean ====
section
/-! DEFINITION. ADC and SBC (41_arithmetic.md). `PC` on entry is the address of the byte after the instruction. -/

namespace Sys2Proof.Machine

/-- ADC, add memory to accumulator with carry (R132). -/
def execAdc (op : ReadOperand) (s : State) : Host.Outcome State Fault Refusal :=
  readInstr op (arith addBinary addDecimal) s

/-- SBC, subtract memory from accumulator with borrow (R133). -/
def execSbc (op : ReadOperand) (s : State) : Host.Outcome State Fault Refusal :=
  readInstr op (arith subBinary subDecimal) s

end Sys2Proof.Machine
end

