-- ==== Sys2Proof/Machine/Branch.lean ====
section
/-! DEFINITION. The eight conditional branches (44_branch.md), over `branch` (R160). -/

namespace Sys2Proof.Machine

/-- BCC, branch if carry clear (R161). -/
def execBcc (d : Byte) (s : State) : Host.Outcome State Fault Refusal := branch (!s.p.c) d s

/-- BCS, branch if carry set (R162). -/
def execBcs (d : Byte) (s : State) : Host.Outcome State Fault Refusal := branch s.p.c d s

/-- BEQ, branch if zero set (R163). -/
def execBeq (d : Byte) (s : State) : Host.Outcome State Fault Refusal := branch s.p.z d s

/-- BNE, branch if zero clear (R164). -/
def execBne (d : Byte) (s : State) : Host.Outcome State Fault Refusal := branch (!s.p.z) d s

/-- BMI, branch if negative set (R165). -/
def execBmi (d : Byte) (s : State) : Host.Outcome State Fault Refusal := branch s.p.n d s

/-- BPL, branch if negative clear (R166). -/
def execBpl (d : Byte) (s : State) : Host.Outcome State Fault Refusal := branch (!s.p.n) d s

/-- BVC, branch if overflow clear (R167). -/
def execBvc (d : Byte) (s : State) : Host.Outcome State Fault Refusal := branch (!s.p.v) d s

/-- BVS, branch if overflow set (R168). -/
def execBvs (d : Byte) (s : State) : Host.Outcome State Fault Refusal := branch s.p.v d s

end Sys2Proof.Machine
end

