-- ==== Sys2Proof/Machine/Compare.lean ====
section
/-! DEFINITION. CMP, CPX and CPY (43_compare.md): only C, Z and N are written. -/

namespace Sys2Proof.Machine

/-- CMP, compare accumulator (R151). -/
def execCmp (op : ReadOperand) (s : State) : Host.Outcome State Fault Refusal :=
  readInstr op (fun m s => { s with p := compareFlags s.a m s.p }) s

/-- CPX, compare X (R152). -/
def execCpx (op : ReadOperand) (s : State) : Host.Outcome State Fault Refusal :=
  readInstr op (fun m s => { s with p := compareFlags s.x m s.p }) s

/-- CPY, compare Y (R153). -/
def execCpy (op : ReadOperand) (s : State) : Host.Outcome State Fault Refusal :=
  readInstr op (fun m s => { s with p := compareFlags s.y m s.p }) s

end Sys2Proof.Machine
end

