-- ==== Sys2Proof/Machine/FlagInstr.lean ====
section
/-! DEFINITION. The flag instructions (46_flag.md): each sets or clears exactly one flag, 2 cycles. -/

namespace Sys2Proof.Machine

/-- CLC, clear carry (R190). -/
def execClc (s : State) : Host.Outcome State Fault Refusal := finish 2 { s with p := { s.p with c := false } }

/-- SEC, set carry (R191). -/
def execSec (s : State) : Host.Outcome State Fault Refusal := finish 2 { s with p := { s.p with c := true } }

/-- CLI, clear interrupt-disable (R192). -/
def execCli (s : State) : Host.Outcome State Fault Refusal := finish 2 { s with p := { s.p with i := false } }

/-- SEI, set interrupt-disable (R193). -/
def execSei (s : State) : Host.Outcome State Fault Refusal := finish 2 { s with p := { s.p with i := true } }

/-- CLD, clear decimal (R194). -/
def execCld (s : State) : Host.Outcome State Fault Refusal := finish 2 { s with p := { s.p with d := false } }

/-- SED, set decimal (R195). -/
def execSed (s : State) : Host.Outcome State Fault Refusal := finish 2 { s with p := { s.p with d := true } }

/-- CLV, clear overflow (R196). -/
def execClv (s : State) : Host.Outcome State Fault Refusal := finish 2 { s with p := { s.p with v := false } }

end Sys2Proof.Machine
end

