-- ==== Sys2Proof/Machine/IncDec.lean ====
section
/-! DEFINITION. Increments and decrements (48_incdec.md): Z and N from the 8-bit result, never C or V. -/

namespace Sys2Proof.Machine

/-- INX (R220). -/
def execInx (s : State) : Host.Outcome State Fault Refusal := finish 2 { s with x := s.x + 1, p := setZN (s.x + 1) s.p }

/-- INY (R221). -/
def execIny (s : State) : Host.Outcome State Fault Refusal := finish 2 { s with y := s.y + 1, p := setZN (s.y + 1) s.p }

/-- DEX (R222). -/
def execDex (s : State) : Host.Outcome State Fault Refusal := finish 2 { s with x := s.x - 1, p := setZN (s.x - 1) s.p }

/-- DEY (R223). -/
def execDey (s : State) : Host.Outcome State Fault Refusal := finish 2 { s with y := s.y - 1, p := setZN (s.y - 1) s.p }

/-- INC, increment memory (R224). -/
def execInc (m : MemOperand) (s : State) : Host.Outcome State Fault Refusal := modifyInstr (· + 1) m s

/-- DEC, decrement memory (R225). -/
def execDec (m : MemOperand) (s : State) : Host.Outcome State Fault Refusal := modifyInstr (· - 1) m s

end Sys2Proof.Machine
end

