-- ==== Sys2Proof/Machine/LogicJump.lean ====
section
/-! DEFINITION. Logic, bit test, no-op, jump and the unofficial no-op (49_logic_jump_nop.md). -/

namespace Sys2Proof.Machine

/-- AND, bitwise and with accumulator (R240). -/
def execAnd (op : ReadOperand) (s : State) : Host.Outcome State Fault Refusal :=
  readInstr op (fun m s => { s with a := s.a &&& m, p := setZN (s.a &&& m) s.p }) s

/-- ORA, bitwise or with accumulator (R241). -/
def execOra (op : ReadOperand) (s : State) : Host.Outcome State Fault Refusal :=
  readInstr op (fun m s => { s with a := s.a ||| m, p := setZN (s.a ||| m) s.p }) s

/-- EOR, bitwise exclusive or with accumulator (R242). -/
def execEor (op : ReadOperand) (s : State) : Host.Outcome State Fault Refusal :=
  readInstr op (fun m s => { s with a := s.a ^^^ m, p := setZN (s.a ^^^ m) s.p }) s

/-- BIT, bit test (R243). -/
def execBit (m : MemOperand) (s : State) : Host.Outcome State Fault Refusal :=
  readInstr (.mem m) (fun v s => { s with p := bitFlags s.a v s.p }) s

/-- NOP (R244), 2 cycles: `PC` has already advanced past it. -/
def execNop (s : State) : Host.Outcome State Fault Refusal := finish 2 s

/-- JMP (R245): ABS 3 cycles, IND 5. -/
def execJmp (op : JumpOperand) (s : State) : Host.Outcome State Fault Refusal :=
  let q := resolveJump op s
  let cycles := match op with
    | .abs _ => 3
    | .ind _ => 5
  finish cycles { q.after with pc := q.addr }

/-- NOP_UNOFFICIAL (R246): a one-byte no-op, whatever the unofficial byte. -/
def execNopUnofficial (_opcode : Byte) (s : State) : Host.Outcome State Fault Refusal :=
  finish Config.unofficialCycles s

end Sys2Proof.Machine
end

