-- ==== Sys2Proof/Machine/Shift.lean ====
section
/-! DEFINITION. ASL, LSR, ROL and ROR (42_shift_rotate.md). -/

namespace Sys2Proof.Machine

/-- ASL, arithmetic shift left (R141). -/
def execAsl (op : ShiftOperand) (s : State) : Host.Outcome State Fault Refusal := shiftInstr aslByte op s

/-- LSR, logical shift right (R142). -/
def execLsr (op : ShiftOperand) (s : State) : Host.Outcome State Fault Refusal := shiftInstr lsrByte op s

/-- ROL, rotate left through carry (R143). -/
def execRol (op : ShiftOperand) (s : State) : Host.Outcome State Fault Refusal := shiftInstr rolByte op s

/-- ROR, rotate right through carry (R144). -/
def execRor (op : ShiftOperand) (s : State) : Host.Outcome State Fault Refusal := shiftInstr rorByte op s

end Sys2Proof.Machine
end

