-- ==== Sys2Proof/Machine/Stack.lean ====
section
/-! DEFINITION. The stack, subroutine and software-interrupt instructions (45_stack_subroutine.md). -/

namespace Sys2Proof.Machine

/-- PHA, push accumulator (R170), 3 cycles. -/
def execPha (s : State) : Host.Outcome State Fault Refusal := finish 3 (push s.a s)

/-- PHP, push processor status with bits 4 and 5 set (R171), 3 cycles. -/
def execPhp (s : State) : Host.Outcome State Fault Refusal := finish 3 (push (pushedP true s.p) s)

/-- PLA, pull accumulator and set Z and N (R172), 4 cycles. -/
def execPla (s : State) : Host.Outcome State Fault Refusal :=
  let q := pull s
  finish 4 { q.2 with a := q.1, p := setZN q.1 q.2.p }

/-- PLP, pull processor status (R173), 4 cycles. -/
def execPlp (s : State) : Host.Outcome State Fault Refusal :=
  let q := pull s
  finish 4 { q.2 with p := loadP q.1 }

/-- JSR, jump to subroutine (R174), 6 cycles: pushes the address of its own last byte. -/
def execJsr (target : Addr) (s : State) : Host.Outcome State Fault Refusal :=
  finish 6 { push16 (s.pc - 1) s with pc := target }

/-- RTS, return from subroutine (R175), 6 cycles: resumes at the pulled address plus 1. -/
def execRts (s : State) : Host.Outcome State Fault Refusal :=
  let q := pull16 s
  finish 6 { q.2 with pc := q.1 + 1 }

/-- BRK, software interrupt (R176), 7 cycles: skips the signature byte without reading it, then enters through the
IRQ/BRK vector with B set. -/
def execBrk (s : State) : Host.Outcome State Fault Refusal :=
  finish 7 (enterInterrupt Config.vecIrq true { s with pc := s.pc + 1 })

/-- RTI, return from interrupt (R177), 6 cycles. -/
def execRti (s : State) : Host.Outcome State Fault Refusal := finish 6 (returnFromInterrupt s)

end Sys2Proof.Machine
end

