-- ==== Sys2Proof/Machine/Transfer.lean ====
section
/-! DEFINITION. Loads, stores and register transfers (47_load_store_transfer.md). A transfer takes 2 cycles. -/

namespace Sys2Proof.Machine

/-- LDA, load accumulator (R200). -/
def execLda (op : ReadOperand) (s : State) : Host.Outcome State Fault Refusal :=
  readInstr op (fun m s => { s with a := m, p := setZN m s.p }) s

/-- LDX, load X (R201). -/
def execLdx (op : ReadOperand) (s : State) : Host.Outcome State Fault Refusal :=
  readInstr op (fun m s => { s with x := m, p := setZN m s.p }) s

/-- LDY, load Y (R202). -/
def execLdy (op : ReadOperand) (s : State) : Host.Outcome State Fault Refusal :=
  readInstr op (fun m s => { s with y := m, p := setZN m s.p }) s

/-- STA, store accumulator (R203). -/
def execSta (m : MemOperand) (s : State) : Host.Outcome State Fault Refusal := storeInstr m s.a s

/-- STX, store X (R204). -/
def execStx (m : MemOperand) (s : State) : Host.Outcome State Fault Refusal := storeInstr m s.x s

/-- STY, store Y (R205). -/
def execSty (m : MemOperand) (s : State) : Host.Outcome State Fault Refusal := storeInstr m s.y s

/-- TAX (R206). -/
def execTax (s : State) : Host.Outcome State Fault Refusal := finish 2 { s with x := s.a, p := setZN s.a s.p }

/-- TXA (R207). -/
def execTxa (s : State) : Host.Outcome State Fault Refusal := finish 2 { s with a := s.x, p := setZN s.x s.p }

/-- TAY (R208). -/
def execTay (s : State) : Host.Outcome State Fault Refusal := finish 2 { s with y := s.a, p := setZN s.a s.p }

/-- TYA (R209). -/
def execTya (s : State) : Host.Outcome State Fault Refusal := finish 2 { s with a := s.y, p := setZN s.y s.p }

/-- TSX (R210). -/
def execTsx (s : State) : Host.Outcome State Fault Refusal := finish 2 { s with x := s.sp, p := setZN s.sp s.p }

/-- TXS (R211): the one transfer that leaves `P` untouched. -/
def execTxs (s : State) : Host.Outcome State Fault Refusal := finish 2 { s with sp := s.x }

end Sys2Proof.Machine
end

