-- ==== Sys2Proof/Machine/Tick.lean ====
section
/-! DEFINITION. The clock step (40_fetch_decode_addressing.md R100), the fetch (R103) and one instruction (R101), and the
instruction-level view (R121). -/

namespace Sys2Proof.Machine

/-- `Fetch8()`: one bus read at `PC`, which advances by one modulo 65536 (R103, R24). -/
def fetch8 (s : State) : Byte × State :=
  let b := memRead s.pc s
  (b.1, { b.2 with pc := s.pc + 1 })

/-- `n` bytes fetched one after another, in the order of their addresses (R54). -/
def fetchBytes (n : Nat) (s : State) : List Byte × State :=
  match n with
  | 0 => ([], s)
  | k + 1 =>
    let b := fetch8 s
    let rest := fetchBytes k b.2
    (b.1 :: rest.1, rest.2)

/-- The bytes of the instruction at `PC`: the opcode byte, then as many operand bytes as it asks for (R80, R84, R101). -/
def fetchInstr (s : State) : List Byte × State :=
  let opcode := fetch8 s
  let operands := fetchBytes (entryOf opcode.1).operandBytes opcode.2
  (opcode.1 :: operands.1, operands.2)

/-- `ExecuteOne()` (R101): fetch, decode, run; the instruction's count is then in `remaining`. -/
def executeOne (s : State) : Host.Outcome State Fault Refusal :=
  let q := fetchInstr s
  match decode q.1 with
  | .ok (i, _) => exec i q.2
  | .error _ => .refused (.undecodable (s.mem.read s.pc))

/-- The end of every tick: one more tick counted, one cycle consumed, and at the end of a budget `ctl` is `Running`
(R100, R34, R35). -/
def endTick (s : State) : State :=
  let s := { s with total := s.total + 1, remaining := s.remaining - 1 }
  if s.remaining = 0 then { s with ctl := .running } else s

/-- What the tick does at an instruction boundary: NMI first, then an unmasked IRQ, else one instruction (R100, R303,
R310). -/
def atBoundary (s : State) : Host.Outcome State Fault Refusal :=
  if s.nmiPending then .next (nmiSequence s)
  else if s.irqLine && !s.p.i then .next (irqSequence s)
  else executeOne { s with ctl := .running }

/-- What the tick does before its count-down: a pending RESET at once, else at a boundary the next sequence or
instruction, else nothing (R100). The bus record starts empty. -/
def dispatch (s : State) : Host.Outcome State Fault Refusal :=
  let s := { s with bus := [] }
  if s.resetPending then .next (resetSequence s)
  else if s.remaining = 0 then atBoundary s
  else .next s

/-- Apply a function to the next state of an outcome. -/
def mapNext (f : State → State) (o : Host.Outcome State Fault Refusal) : Host.Outcome State Fault Refusal :=
  match o with
  | .next s => .next (f s)
  | .fault r => .fault r
  | .refused r => .refused r

/-- `tick()` (R100). -/
def tick (s : State) : Host.Outcome State Fault Refusal := mapNext endTick (dispatch s)

/-- What `tick` returns to the host: whether the tick left the block at an instruction boundary (R100, R33). -/
def boundary (s : State) : Bool := s.remaining == 0

/-- A whole budget consumed at once: every cycle of it is counted and the block is at the next boundary (R121). -/
def consumeBudget (s : State) : State :=
  { s with total := s.total + BitVec.ofNat 64 s.remaining, remaining := 0, ctl := .running }

/-- The instruction-level view (R121): one step from boundary to boundary. -/
def boundaryStep (s : State) : Host.Outcome State Fault Refusal := mapNext consumeBudget (dispatch s)

end Sys2Proof.Machine
end

