-- ==== Sys2Proof/Machine/Step.lean ====
section
/-! DEFINITION. One step of the machine is one call of `tick()` (40_fetch_decode_addressing.md R100). -/

namespace Sys2Proof.Machine

/-- One step: one tick. -/
def step (s : State) : Host.Outcome State Fault Refusal := tick s

/-- The state `s` with an instruction stored where the next tick fetches: its bits numbered from the least significant bit of
its first byte, bits from `nbits` up 0, three bytes at `PC`. So that the very next tick fetches, no budget, no latch and no
unmasked IRQ level is left over; at `State.reset` none of the four is set, so there only memory changes. It stands for the
host's load of a program (notes/assumptions/6.md). -/
def State.withFetchWord (s : State) (nbits w : Nat) : State :=
  { hostWrite s.pc (tableBytes nbits w) s with
    remaining := 0
    resetPending := false
    nmiPending := false
    irqLine := s.irqLine && s.p.i }

end Sys2Proof.Machine
end

