-- ==== Sys2Proof/Safety.lean ====
section
/-! DEFINITION. The terms in which claims about the machine are stated: the invariant, the frames (what an instruction leaves
unchanged), and the flags of a result. -/

namespace Sys2Proof.Machine

/-- The four 8-bit registers that hold data (10_state.md R20). -/
inductive Reg where
  | a | x | y | sp
deriving DecidableEq, Repr

/-- The six stored flags (R26). -/
inductive Flag where
  | c | z | i | d | v | n
deriving DecidableEq, Repr

/-- The value of a register. -/
def State.reg (s : State) : Reg → Byte
  | .a => s.a
  | .x => s.x
  | .y => s.y
  | .sp => s.sp

/-- The value of a flag. -/
def State.flag (s : State) : Flag → Bool
  | .c => s.p.c
  | .z => s.p.z
  | .i => s.p.i
  | .d => s.p.d
  | .v => s.p.v
  | .n => s.p.n

/-- Every register but those named holds in `t` what it held in `s`. -/
def KeepsRegs (except : List Reg) (s t : State) : Prop := ∀ r, r ∉ except → t.reg r = s.reg r

/-- Every flag but those named is in `t` what it was in `s`. -/
def KeepsFlags (except : List Flag) (s t : State) : Prop := ∀ f, f ∉ except → t.flag f = s.flag f

/-- Every byte of memory outside the addresses named reads in `t` as it read in `s`. -/
def KeepsMemory (stored : List Addr) (s t : State) : Prop := ∀ b : Addr, b ∉ stored → t.mem.read b = s.mem.read b

/-- The controller, the latches, the IRQ level and the tick count are in `t` what they were in `s`. -/
def KeepsController (s t : State) : Prop :=
  t.ctl = s.ctl ∧ t.resetPending = s.resetPending ∧ t.nmiPending = s.nmiPending ∧ t.irqLine = s.irqLine ∧ t.total = s.total

/-- All of that, and the count of free values, are in `t` what they were in `s`. -/
def KeepsControl (s t : State) : Prop := KeepsController s t ∧ t.freeDraws = s.freeDraws

/-- The frame of an instruction: all state but the registers, flags and bytes of memory named, the program counter, and the
record of its own cycles and bus accesses. -/
def Frame (regs : List Reg) (flags : List Flag) (stored : List Addr) (s t : State) : Prop :=
  KeepsRegs regs s t ∧ KeepsFlags flags s t ∧ KeepsMemory stored s t ∧ KeepsControl s t

/-- Z is set exactly when the 8-bit value is 0, and N exactly when its bit 7 is 1 (R28). -/
def ZeroNegativeOf (v : Byte) (t : State) : Prop :=
  (t.p.z = true ↔ v.toNat = 0) ∧ (t.p.n = true ↔ 128 ≤ v.toNat)

/-- What the instruction cost and did on the bus: its cycle count, and the accesses it added (R118, R120). -/
def Spends (cycles : Nat) (accesses : List BusAccess) (s t : State) : Prop :=
  t.remaining = cycles ∧ t.bus = s.bus ++ accesses

/-- The invariant of the machine: the memory has its canonical form; `remaining` is 0 to 7 (R32, R33); at a boundary `ctl`
is `Running` (R35); a tick makes at most six bus accesses (R60). -/
def State.Inv (s : State) : Prop :=
  s.mem.wf ∧ s.remaining ≤ 7 ∧ (s.remaining = 0 → s.ctl = .running) ∧ s.bus.length ≤ 6

/-- The next tick runs an instruction: no RESET is pending, the block is at a boundary, no NMI is latched, and no IRQ is
asserted unmasked (R100, R303). -/
def State.ReadyToExecute (s : State) : Prop :=
  s.resetPending = false ∧ s.remaining = 0 ∧ s.nmiPending = false ∧ (s.irqLine = true → s.p.i = true)

/-- The three bytes from `PC` on. -/
def State.bytesAtPc (s : State) : List Byte :=
  [s.mem.read s.pc, s.mem.read (s.pc + 1), s.mem.read (s.pc + 2)]

/-- `n` ticks, one after another, as long as each answers a next state. -/
def ticks (n : Nat) (s : State) : Host.Outcome State Fault Refusal :=
  match n with
  | 0 => .next s
  | k + 1 =>
    match step s with
    | .next t => ticks k t
    | .fault r => .fault r
    | .refused r => .refused r

/-- `n` executions of one instruction, one after another. -/
def execTimes (n : Nat) (i : Instr) (s : State) : Host.Outcome State Fault Refusal :=
  match n with
  | 0 => .next s
  | k + 1 =>
    match exec i s with
    | .next t => execTimes k i t
    | .fault r => .fault r
    | .refused r => .refused r

/-- The register `r` takes the value `v`, Z and N are set from it, and nothing else changes (R28). -/
def WritesRegZN (r : Reg) (v : Byte) (s t : State) : Prop :=
  t.reg r = v ∧ ZeroNegativeOf v t ∧ t.pc = s.pc ∧ Frame [r] [.z, .n] [] s t

/-- What entering through a vector leaves (R304): `PC` high, `PC` low and the status byte with bit 4 = `b` on the stack,
`S` lower by 3, I set, `PC` the word at the vector; A, X, Y, the other flags and all other memory as before. -/
def EnteredThrough (vector : Addr) (b : Bool) (s t : State) : Prop :=
  t.mem.read (stackAddr s.sp) = hiByte s.pc ∧
  t.mem.read (stackAddr (s.sp - 1)) = loByte s.pc ∧
  t.mem.read (stackAddr (s.sp - 2)) = pushedP b s.p ∧
  t.sp = s.sp - 3 ∧
  t.p.i = true ∧
  t.pc = cat (s.mem.read (vector + 1)) (s.mem.read vector) ∧
  KeepsRegs [.sp] s t ∧
  KeepsFlags [.i] s t ∧
  KeepsMemory [stackAddr s.sp, stackAddr (s.sp - 1), stackAddr (s.sp - 2)] s t

/-- The bus accesses of such an entry, in order (R120). -/
def entryAccesses (vector : Addr) (b : Bool) (s : State) : List BusAccess :=
  [.write (stackAddr s.sp) (hiByte s.pc), .write (stackAddr (s.sp - 1)) (loByte s.pc),
    .write (stackAddr (s.sp - 2)) (pushedP b s.p), .read vector, .read (vector + 1)]

/-- A byte whose two halves are decimal digits (00_scope.md R12, valid BCD). -/
def IsBcd (b : Byte) : Prop := b.toNat / 16 ≤ 9 ∧ b.toNat % 16 ≤ 9

/-- The number that a valid BCD byte stands for, `dec(b)` of R131. -/
def bcdValue (b : Byte) : Nat := 10 * (b.toNat / 16) + b.toNat % 16

/-- The memory after the writes among some bus accesses, in order (R9). -/
def applyWrites (m : Memory) : List BusAccess → Memory
  | [] => m
  | .read _ :: rest => applyWrites m rest
  | .write a v :: rest => applyWrites (m.write a v) rest

end Sys2Proof.Machine
end

