-- ==== Sys2Proof/Certificates/Slice0/Obligations.lean ====
section
/-! DEFINITION. The statements for the provers, one per `def Obligations.<Name> : Prop`; OBLIGATIONS.json lists them. Where a
statement says what a byte of memory reads as after a write, the memory is the flat RAM that the model takes as `BUS` (log
entry 4). -/

open Sys2Proof Sys2Proof.Machine

/-! ### Encoding -/

/-- Instruction words written out from the map of 30_encoding.md R86, one or more per family, and what each stands for. -/
def Obligations.SampleWordsDecode : Prop :=
  decode [0x69#8, 0x03#8] = .ok (.adc (.imm 0x03#8), []) ∧
  decode [0xF1#8, 0x10#8] = .ok (.sbc (.mem (.izy 0x10#8)), []) ∧
  decode [0x0A#8] = .ok (.asl .acc, []) ∧
  decode [0x7E#8, 0x00#8, 0x02#8] = .ok (.ror (.mem (.abx 0x0200#16)), []) ∧
  decode [0xC1#8, 0x20#8] = .ok (.cmp (.mem (.izx 0x20#8)), []) ∧
  decode [0xD0#8, 0xFB#8] = .ok (.bne 0xFB#8, []) ∧
  decode [0x20#8, 0x10#8, 0x80#8] = .ok (.jsr 0x8010#16, []) ∧
  decode [0x00#8, 0xEA#8] = .ok (.brk, [0xEA#8]) ∧
  decode [0x58#8] = .ok (.cli, []) ∧
  decode [0xA9#8, 0x05#8] = .ok (.lda (.imm 0x05#8), []) ∧
  decode [0x96#8, 0xFF#8] = .ok (.stx (.zpy 0xFF#8), []) ∧
  decode [0xE8#8] = .ok (.inx, []) ∧
  decode [0xCE#8, 0x00#8, 0x02#8] = .ok (.dec (.abs 0x0200#16), []) ∧
  decode [0x6C#8, 0xFF#8, 0x02#8] = .ok (.jmp (.ind 0x02FF#16), []) ∧
  decode [0x80#8, 0xFF#8] = .ok (.nopUnofficial 0x80#8, [0xFF#8])

/-- Decoding the bytes of a well-formed instruction, whatever follows them, gives it back with every operand at the value it
had (R80, R82, R86, R88). -/
def Obligations.EncodeThenDecodeGivesTheInstruction : Prop :=
  ∀ (i : Instr) (rest : List Byte), i.wellFormed = true → decode (encode i ++ rest) = .ok (i, rest)

/-- What the decoder answers is a well-formed instruction, and its encoding is exactly the bytes read: every byte string has
at most one reading and no bit is dropped (R80, R84, R86, R88). -/
def Obligations.DecodeThenEncodeGivesTheBytes : Prop :=
  ∀ (bytes rest : List Byte) (i : Instr), decode bytes = .ok (i, rest) → i.wellFormed = true ∧ encode i ++ rest = bytes

/-- Every opcode byte is an instruction, and fixes the number of operand bytes by itself: with that many bytes after it,
whatever they are, decoding succeeds (R80, R84, R89, R102). -/
def Obligations.OpcodeByteAloneFixesTheLength : Prop :=
  ∀ opcode : Byte, ∃ n, n ≤ 2 ∧ ∀ operands rest : List Byte, operands.length = n →
    ∃ i, decode (opcode :: (operands ++ rest)) = .ok (i, rest) ∧ i.length = 1 + n ∧ i.opcode = some opcode

/-! ### The clock step -/

/-- When the next tick runs an instruction, the step is the meaning of the instruction that the bytes at `PC` decode to, run
with those bytes fetched one by one and `PC` moved past them, and then one cycle counted (R100, R101, R103). -/
def Obligations.StepRunsTheDecodedInstruction : Prop :=
  ∀ (s : State) (i : Instr) (rest : List Byte), s.ReadyToExecute → decode s.bytesAtPc = .ok (i, rest) →
    step s = mapNext endTick (exec i
      { s with
        ctl := .running
        pc := s.pc + BitVec.ofNat 16 i.length
        bus := (List.range i.length).map fun k => .read (s.pc + BitVec.ofNat 16 k) })

/-- Every step from every state answers a next state: nothing faults and nothing is refused (R309, R102, R52). -/
def Obligations.EveryStepAnswersANextState : Prop := ∀ s : State, ∃ t, step s = .next t

/-- Every step keeps the invariant (R32, R33, R35, R60). The canonical form of the memory is the model's own (log entry 2). -/
def Obligations.EveryStepKeepsTheInvariant : Prop := ∀ s t : State, s.Inv → step s = .next t → t.Inv

/-- The invariant holds right after reset. That the memory lists nothing there is the model's choice (log entry 2). -/
def Obligations.ResetMeetsTheInvariant : Prop := State.reset.Inv

/-- A tick with budget left and no RESET pending only counts down (R100, R35). -/
def Obligations.CountDownTickOnlyCounts : Prop :=
  ∀ s : State, s.resetPending = false → 0 < s.remaining →
    step s = .next
      { s with
        remaining := s.remaining - 1
        total := s.total + 1
        ctl := if s.remaining = 1 then .running else s.ctl
        bus := [] }

/-- The two granularities agree (R121, R118): from a tick that dispatches, with a count of n loaded, n ticks give what the
one boundary-to-boundary step gives, and only the last of them ends at a boundary; at every earlier one the registers, flags
and memory are already final. The ticks have no host action between them (log entry 8). -/
def Obligations.InstructionLevelViewAgreesWithTicks : Prop :=
  ∀ s : State, (s.resetPending = true ∨ s.remaining = 0) →
    ∃ u t, dispatch s = .next u ∧ 2 ≤ u.remaining ∧ boundaryStep s = .next t ∧ boundary t = true ∧
      ticks u.remaining s = .next { t with bus := [] } ∧
      ∀ k, 0 < k → k < u.remaining →
        ∃ w, ticks k s = .next w ∧ boundary w = false ∧ w.mem = t.mem ∧ w.pc = t.pc ∧ w.p = t.p ∧
          w.a = t.a ∧ w.x = t.x ∧ w.y = t.y ∧ w.sp = t.sp

/-- Every step counts exactly one cycle, leaves the IRQ level to the host, ends with no RESET pending, and keeps a latched
NMI exactly when neither RESET nor the NMI itself was served (R34, R36, R37, R38). -/
def Obligations.EveryStepCountsOneCycleAndServesLatches : Prop :=
  ∀ s t : State, step s = .next t →
    t.total = s.total + 1 ∧ t.irqLine = s.irqLine ∧ t.resetPending = false ∧
      (t.nmiPending = true ↔ s.nmiPending = true ∧ s.resetPending = false ∧ s.remaining ≠ 0)

/-- No outcome depends on the tick count, on `ctl`, or on what the bus did before (R35, R316, R347). -/
def Obligations.NoOutcomeDependsOnTotalCtlOrPastAccesses : Prop :=
  ∀ (s : State) (n : BitVec 64) (c : Ctl) (b : List BusAccess),
    mapNext (fun t => { t with total := 0#64, ctl := .running }) (step { s with total := n, ctl := c, bus := b }) =
      mapNext (fun t => { t with total := 0#64, ctl := .running }) (step s)

/-- The memory after a step is the memory before it with the step's bus writes applied in order: no byte changes but by a
write the host sees (R9, R61, R63). That the memory is a flat RAM is the model's instance of `BUS` (log entry 4). -/
def Obligations.MemoryChangesOnlyByBusWrites : Prop :=
  ∀ s t : State, step s = .next t → t.mem = applyWrites s.mem t.bus

/-- A free value is drawn only in a step that runs an ADC or SBC with D set on an operand that is not valid BCD (R131,
00_scope.md R2). The count of draws is the model's own (log entry 3). -/
def Obligations.FreeValuesOnlyForInvalidBcd : Prop :=
  ∀ s t : State, step s = .next t → t.freeDraws ≠ s.freeDraws →
    t.freeDraws = s.freeDraws + 1 ∧ s.p.d = true ∧ s.ReadyToExecute ∧
      ∃ op rest, (decode s.bytesAtPc = .ok (.adc op, rest) ∨ decode s.bytesAtPc = .ok (.sbc op, rest)) ∧
        ¬ (IsBcd s.a ∧ IsBcd (operandValue op s).value)

/-! ### RESET, NMI, IRQ -/

/-- RESET from any state and at any point of a budget (R301, R41): its first tick reads the vector and pushes nothing, its
seven ticks end at a boundary, and I, `PC`, the latches, the budget and the tick count are all that changed. -/
def Obligations.ResetFromAnyState : Prop :=
  ∀ s : State,
    let t : State :=
      { s with
        p := { s.p with i := true }
        pc := cat (s.mem.read 0xFFFD#16) (s.mem.read 0xFFFC#16)
        resetPending := false
        nmiPending := false }
    step (triggerReset s) =
        .next
          { t with
            remaining := 6
            total := s.total + 1
            ctl := .servicingReset
            bus := [.read 0xFFFC#16, .read 0xFFFD#16] } ∧
      ticks 7 (triggerReset s) = .next { t with remaining := 0, total := s.total + 7, ctl := .running, bus := [] } ∧
      ∀ k, 0 < k → k < 7 →
        ∃ w, ticks k (triggerReset s) = .next w ∧ boundary w = false ∧ w.ctl = .servicingReset

/-- NMI at a boundary (R305, R304, R310): taken whatever I and the IRQ level are, through `0xFFFA`, with B clear. -/
def Obligations.NmiIsTakenWhateverIIs : Prop :=
  ∀ s : State, s.resetPending = false → s.remaining = 0 → s.nmiPending = true →
    ∃ t, step s = .next t ∧ EnteredThrough 0xFFFA#16 false s t ∧ t.nmiPending = false ∧ t.irqLine = s.irqLine ∧
      t.ctl = .servicingNmi ∧ t.remaining = 6 ∧ t.bus = entryAccesses 0xFFFA#16 false s

/-- IRQ at a boundary with no NMI pending (R306, R304): taken when the level is true and I is 0, through `0xFFFE`, with B
clear; the level stays. -/
def Obligations.IrqIsTakenWhenUnmasked : Prop :=
  ∀ s : State, s.resetPending = false → s.remaining = 0 → s.nmiPending = false → s.irqLine = true → s.p.i = false →
    ∃ t, step s = .next t ∧ EnteredThrough 0xFFFE#16 false s t ∧ t.irqLine = true ∧
      t.ctl = .servicingIrq ∧ t.remaining = 6 ∧ t.bus = entryAccesses 0xFFFE#16 false s

/-- While I is set the IRQ level has no effect at all: whatever it is, the step is the same but for the level itself
(R303). -/
def Obligations.MaskedIrqHasNoEffect : Prop :=
  ∀ (s : State) (active : Bool), s.p.i = true → step (setIrqLine active s) = mapNext (setIrqLine active) (step s)

/-- CLI takes effect at the very next boundary (R192, R303): with the IRQ level true, the tick after the CLI's two
enters the handler, and the return address is that of the instruction after the CLI. -/
def Obligations.CliTakesEffectAtTheNextBoundary : Prop :=
  ∀ s : State, s.ReadyToExecute → s.irqLine = true → s.mem.read s.pc = 0x58#8 →
    ∃ t, ticks 3 s = .next t ∧ t.ctl = .servicingIrq ∧
      EnteredThrough 0xFFFE#16 false { s with pc := s.pc + 1, p := { s.p with i := false } } t

/-- A return from interrupt undoes the entry (R304, R312): it resumes at the interrupted address with the interrupted flags
and stack pointer. That the pulls read what the entry pushed rests on the flat RAM (log entry 4). -/
def Obligations.ReturnUndoesInterruptEntry : Prop :=
  ∀ (s : State) (vector : Addr) (b : Bool),
    ∃ t, exec .rti (enterInterrupt vector b s) = .next t ∧ t.pc = s.pc ∧ t.p = s.p ∧ t.sp = s.sp ∧
      KeepsRegs [] s t ∧ KeepsMemory [stackAddr s.sp, stackAddr (s.sp - 1), stackAddr (s.sp - 2)] s t

/-! ### Addressing -/

/-- The effective address, the page-cross indicator and the pointer reads of each memory mode (R108, R109, R111, R112, R115,
R116), in numbers: page-0 sums modulo 256, absolute sums modulo 65536, pointers low byte first and within page 0. -/
def Obligations.ModesGiveTheirAddresses : Prop :=
  ∀ (s : State) (z : Byte) (w : Addr),
    let byteAt : Nat → Nat := fun n => (s.mem.read (BitVec.ofNat 16 n)).toNat
    let zp : Nat := (z.toNat + s.x.toNat) % 256
    let yBase : Nat := byteAt z.toNat + 256 * byteAt ((z.toNat + 1) % 256)
    ((resolve (.zp0 z) s).addr.toNat = z.toNat ∧ (resolve (.zp0 z) s).cross = false ∧ (resolve (.zp0 z) s).after = s) ∧
    ((resolve (.zpx z) s).addr.toNat = zp ∧ (resolve (.zpx z) s).cross = false ∧ (resolve (.zpx z) s).after = s) ∧
    ((resolve (.zpy z) s).addr.toNat = (z.toNat + s.y.toNat) % 256 ∧ (resolve (.zpy z) s).cross = false ∧
      (resolve (.zpy z) s).after = s) ∧
    ((resolve (.abs w) s).addr = w ∧ (resolve (.abs w) s).cross = false ∧ (resolve (.abs w) s).after = s) ∧
    ((resolve (.abx w) s).addr.toNat = (w.toNat + s.x.toNat) % 65536 ∧
      ((resolve (.abx w) s).cross = true ↔ 256 ≤ w.toNat % 256 + s.x.toNat) ∧ (resolve (.abx w) s).after = s) ∧
    ((resolve (.aby w) s).addr.toNat = (w.toNat + s.y.toNat) % 65536 ∧
      ((resolve (.aby w) s).cross = true ↔ 256 ≤ w.toNat % 256 + s.y.toNat) ∧ (resolve (.aby w) s).after = s) ∧
    ((resolve (.izx z) s).addr.toNat = byteAt zp + 256 * byteAt ((zp + 1) % 256) ∧ (resolve (.izx z) s).cross = false ∧
      (resolve (.izx z) s).after =
        { s with bus := s.bus ++ [.read (BitVec.ofNat 16 zp), .read (BitVec.ofNat 16 ((zp + 1) % 256))] }) ∧
    ((resolve (.izy z) s).addr.toNat = (yBase + s.y.toNat) % 65536 ∧
      ((resolve (.izy z) s).cross = true ↔ 256 ≤ yBase % 256 + s.y.toNat) ∧
      (resolve (.izy z) s).after =
        { s with bus := s.bus ++ [.read (BitVec.ofNat 16 z.toNat), .read (BitVec.ofNat 16 ((z.toNat + 1) % 256))] })

/-- Crossing a page is a carry out of the low byte, also when the sum wraps at the top of the address space (R113). -/
def Obligations.PageCrossIsALowByteCarry : Prop :=
  ∀ (base : Addr) (index : Byte),
    pagesDiffer (base + zext16 index) base = true ↔ 256 ≤ base.toNat % 256 + index.toNat

/-! ### Arithmetic -/

/-- ADC with D clear (R130, R132): the sum with carry modulo 256, C its ninth bit, V exactly when the signed sum is outside
-128 to 127, Z and N from the result. -/
def Obligations.AdcBinary : Prop :=
  ∀ (op : ReadOperand) (s : State), s.p.d = false →
    let m : Byte := (operandValue op s).value
    let n : Nat := s.a.toNat + m.toNat + s.p.c.toNat
    let k : Int := s.a.toInt + m.toInt + s.p.c.toNat
    ∃ t, exec (.adc op) s = .next t ∧ t.a.toNat = n % 256 ∧ (t.p.c = true ↔ 256 ≤ n) ∧
      (t.p.v = true ↔ k < -128 ∨ 127 < k) ∧ ZeroNegativeOf t.a t ∧ t.pc = s.pc ∧ Frame [.a] [.c, .z, .v, .n] [] s t

/-- SBC with D clear (R130, R133): A - M - (1 - C) modulo 256, C set exactly when no borrow occurred, V exactly when the
signed difference is outside -128 to 127, Z and N from the result. -/
def Obligations.SbcBinary : Prop :=
  ∀ (op : ReadOperand) (s : State), s.p.d = false →
    let m : Byte := (operandValue op s).value
    let n : Int := (s.a.toNat : Int) - m.toNat - (1 - s.p.c.toNat)
    let k : Int := s.a.toInt - m.toInt - (1 - s.p.c.toNat)
    ∃ t, exec (.sbc op) s = .next t ∧ (t.a.toNat : Int) = n % 256 ∧ (t.p.c = true ↔ 0 ≤ n) ∧
      (t.p.v = true ↔ k < -128 ∨ 127 < k) ∧ ZeroNegativeOf t.a t ∧ t.pc = s.pc ∧ Frame [.a] [.c, .z, .v, .n] [] s t

/-- ADC with D set and valid BCD operands (R131, R132): the two-digit decimal sum, C the decimal carry, V the source's test
on the corrected result, Z and N from it. -/
def Obligations.AdcDecimal : Prop :=
  ∀ (op : ReadOperand) (s : State), s.p.d = true → IsBcd s.a → IsBcd (operandValue op s).value →
    let m : Byte := (operandValue op s).value
    let n : Nat := bcdValue s.a + bcdValue m + s.p.c.toNat
    ∃ t, exec (.adc op) s = .next t ∧ IsBcd t.a ∧ bcdValue t.a = n % 100 ∧ (t.p.c = true ↔ 100 ≤ n) ∧
      (t.p.v = true ↔ s.a.msb = m.msb ∧ t.a.msb ≠ s.a.msb) ∧ ZeroNegativeOf t.a t ∧ t.pc = s.pc ∧
      Frame [.a] [.c, .z, .v, .n] [] s t

/-- SBC with D set and valid BCD operands (R131, R133): the two-digit decimal difference, C the decimal not-borrow, V the
source's test on the corrected result, Z and N from it. -/
def Obligations.SbcDecimal : Prop :=
  ∀ (op : ReadOperand) (s : State), s.p.d = true → IsBcd s.a → IsBcd (operandValue op s).value →
    let m : Byte := (operandValue op s).value
    let n : Int := (bcdValue s.a : Int) - bcdValue m - (1 - s.p.c.toNat)
    ∃ t, exec (.sbc op) s = .next t ∧ IsBcd t.a ∧ (bcdValue t.a : Int) = n % 100 ∧ (t.p.c = true ↔ 0 ≤ n) ∧
      (t.p.v = true ↔ s.a.msb ≠ m.msb ∧ t.a.msb ≠ s.a.msb) ∧ ZeroNegativeOf t.a t ∧ t.pc = s.pc ∧
      Frame [.a] [.c, .z, .v, .n] [] s t

/-- ADC and SBC with D set and an operand that is not valid BCD (R131): the instruction runs, A and the flags C, Z, N, V take
the next free values, and every other field of the state is as for any operand. True whatever the free values are; that the instruction runs
and draws, and is not refused, is the model's choice among the two that R131 allows (log entry 3). -/
def Obligations.InvalidBcdDrawsFreeValues : Prop :=
  ∀ (op : ReadOperand) (s : State), s.p.d = true → ¬ (IsBcd s.a ∧ IsBcd (operandValue op s).value) →
    ∀ i ∈ [Instr.adc op, Instr.sbc op],
      ∃ t, exec i s = .next t ∧
        t.a = Config.freeAccumulator s.freeDraws ∧ t.p.c = Config.freeCarry s.freeDraws ∧
        t.p.z = Config.freeZero s.freeDraws ∧ t.p.n = Config.freeNegative s.freeDraws ∧
        t.p.v = Config.freeOverflow s.freeDraws ∧ t.freeDraws = s.freeDraws + 1 ∧
        t.pc = s.pc ∧ KeepsRegs [.a] s t ∧ KeepsFlags [.c, .z, .v, .n] s t ∧ KeepsMemory [] s t ∧ KeepsController s t ∧
        t.remaining = readCycles op (operandValue op s).cross ∧ t.bus = (operandValue op s).after.bus

/-- The round trip `SBC(ADC(A,M,0),M,1)` restores A: in binary mode for every A and M, in decimal mode for every valid BCD A
and M (R135). -/
def Obligations.SbcUndoesAdc : Prop :=
  ∀ (s t : State) (m : Byte), s.p.c = false → (s.p.d = true → IsBcd s.a ∧ IsBcd m) →
    exec (.adc (.imm m)) s = .next t →
    ∃ u, exec (.sbc (.imm m)) { t with p := { t.p with c := true } } = .next u ∧ u.a = s.a

/-! ### Shifts and rotates -/

/-- The four shifts and rotates on A (R140 to R144): the result, the bit shifted out in C, Z and N from the result, two cycles
and no bus access. -/
def Obligations.ShiftsOnA : Prop :=
  ∀ s : State,
    let v : Nat := s.a.toNat
    let c : Nat := s.p.c.toNat
    ∀ q ∈ [(Instr.asl .acc, 2 * v % 256, v / 128), (Instr.lsr .acc, v / 2, v % 2),
        (Instr.rol .acc, 2 * v % 256 + c, v / 128), (Instr.ror .acc, v / 2 + 128 * c, v % 2)],
      ∃ t, exec q.1 s = .next t ∧ t.a.toNat = q.2.1 ∧ t.p.c.toNat = q.2.2 ∧ ZeroNegativeOf t.a t ∧ t.pc = s.pc ∧
        Frame [.a] [.c, .z, .n] [] s t ∧ Spends 2 [] s t

/-- The four shifts and rotates on a byte of memory (R140 to R144): that byte is replaced by the result, A is untouched, and
the bus makes one read and one write of its address. -/
def Obligations.ShiftsOnMemory : Prop :=
  ∀ (m : MemOperand) (s : State),
    let addr : Addr := (resolve m s).addr
    let v : Nat := (s.mem.read addr).toNat
    let c : Nat := s.p.c.toNat
    ∀ q ∈ [(Instr.asl (.mem m), 2 * v % 256, v / 128), (Instr.lsr (.mem m), v / 2, v % 2),
        (Instr.rol (.mem m), 2 * v % 256 + c, v / 128), (Instr.ror (.mem m), v / 2 + 128 * c, v % 2)],
      ∃ t, exec q.1 s = .next t ∧ (t.mem.read addr).toNat = q.2.1 ∧ t.p.c.toNat = q.2.2 ∧
        ZeroNegativeOf (t.mem.read addr) t ∧ t.pc = s.pc ∧ Frame [] [.c, .z, .n] [addr] s t ∧
        t.bus = (resolve m s).after.bus ++ [.read addr, .write addr (t.mem.read addr)]

/-- Nine ROLs of A restore the nine-bit quantity of C and A (R143). -/
def Obligations.NineRolsRestoreCarryAndA : Prop :=
  ∀ s : State, ∃ u, execTimes 9 (.rol .acc) s = .next u ∧ u.a = s.a ∧ u.p.c = s.p.c

/-! ### Compare, logic, BIT -/

/-- CMP, CPX and CPY (R150 to R153): C for an unsigned register at least the operand, Z for equality, N bit 7 of the 8-bit
difference; the incoming C, D and V play no part and no register or memory is written. -/
def Obligations.ComparesSetThreeFlags : Prop :=
  ∀ (op : ReadOperand) (s : State),
    let m : Nat := (operandValue op s).value.toNat
    ∀ q ∈ [(Instr.cmp op, s.a.toNat), (Instr.cpx op, s.x.toNat), (Instr.cpy op, s.y.toNat)],
      ∃ t, exec q.1 s = .next t ∧ (t.p.c = true ↔ m ≤ q.2) ∧ (t.p.z = true ↔ q.2 = m) ∧
        (t.p.n = true ↔ 128 ≤ (q.2 + 256 - m) % 256) ∧ t.pc = s.pc ∧ Frame [] [.c, .z, .n] [] s t

/-- AND, ORA and EOR (R240 to R242): A takes the bitwise result, Z and N come from it. -/
def Obligations.LogicWritesA : Prop :=
  ∀ (op : ReadOperand) (s : State),
    let m : Byte := (operandValue op s).value
    (∃ t, exec (.and op) s = .next t ∧ WritesRegZN .a (s.a &&& m) s t) ∧
    (∃ t, exec (.ora op) s = .next t ∧ WritesRegZN .a (s.a ||| m) s t) ∧
    (∃ t, exec (.eor op) s = .next t ∧ WritesRegZN .a (s.a ^^^ m) s t)

/-- BIT (R243): Z from `A & M`, N and V from bits 7 and 6 of the memory byte; A is unchanged. -/
def Obligations.BitTestsTheMemoryByte : Prop :=
  ∀ (m : MemOperand) (s : State),
    let v : Byte := (operandValue (.mem m) s).value
    ∃ t, exec (.bit m) s = .next t ∧ (t.p.z = true ↔ s.a &&& v = 0#8) ∧ (t.p.n = true ↔ 128 ≤ v.toNat) ∧
      (t.p.v = true ↔ 64 ≤ v.toNat % 128) ∧ t.pc = s.pc ∧ Frame [] [.z, .v, .n] [] s t

/-! ### Branches and jumps -/

/-- The eight branches (R160 to R168), each by the flag it tests: not taken, only 2 cycles pass; taken, `PC` moves by the signed
displacement modulo 65536, in 3 cycles or, to another page than the next instruction's, in 4. -/
def Obligations.BranchesTestTheirFlag : Prop :=
  ∀ (d : Byte) (s : State),
    ∀ q ∈ [(Instr.bcc d, 0x90#8, !s.p.c), (Instr.bcs d, 0xB0#8, s.p.c), (Instr.beq d, 0xF0#8, s.p.z),
        (Instr.bne d, 0xD0#8, !s.p.z), (Instr.bmi d, 0x30#8, s.p.n), (Instr.bpl d, 0x10#8, !s.p.n),
        (Instr.bvc d, 0x50#8, !s.p.v), (Instr.bvs d, 0x70#8, s.p.v)],
      encode q.1 = [q.2.1, d] ∧
      ∃ t, exec q.1 s = .next t ∧ Frame [] [] [] s t ∧
        (q.2.2 = false → t.pc = s.pc ∧ Spends 2 [] s t) ∧
        (q.2.2 = true → (t.pc.toNat : Int) = (s.pc.toNat + d.toInt) % 65536 ∧
          Spends (if t.pc.toNat / 256 = s.pc.toNat / 256 then 3 else 4) [] s t)

/-- JMP (R245, R114): `PC` takes the address, or the word the pointer names, whose high byte comes from the pointer's own page
(`JMP ($xxFF)` reads it at `$xx00`). -/
def Obligations.JumpSetsPc : Prop :=
  ∀ (w : Addr) (s : State),
    let next : Addr := BitVec.ofNat 16 (w.toNat / 256 * 256 + (w.toNat + 1) % 256)
    (encode (.jmp (.abs w)) = [0x4C#8, loByte w, hiByte w] ∧
      ∃ t, exec (.jmp (.abs w)) s = .next t ∧ t.pc = w ∧ Frame [] [] [] s t ∧ Spends 3 [] s t) ∧
    (encode (.jmp (.ind w)) = [0x6C#8, loByte w, hiByte w] ∧
      ∃ t, exec (.jmp (.ind w)) s = .next t ∧
        t.pc.toNat = (s.mem.read w).toNat + 256 * (s.mem.read next).toNat ∧ Frame [] [] [] s t ∧
        Spends 5 [.read w, .read next] s t)

/-- NOP and the 105 unofficial bytes (R244, R246, R88): one byte, two cycles, nothing else; the step that runs one moves `PC` by
1, makes the opcode fetch its one bus access, and consumes the first of the two cycles. -/
def Obligations.NopsOnlyPassTwoCycles : Prop :=
  ∀ (s : State) (rest : List Byte),
    unofficialOpcodes.length = 105 ∧ unofficialOpcodes.Nodup ∧
    ∀ q ∈ (0xEA#8, Instr.nop) :: unofficialOpcodes.map (fun b => (b, Instr.nopUnofficial b)),
      decode (q.1 :: rest) = .ok (q.2, rest) ∧ exec q.2 s = .next { s with remaining := 2 } ∧
      (s.ReadyToExecute → s.mem.read s.pc = q.1 →
        step s = .next
          { s with
            pc := s.pc + 1
            remaining := 1
            total := s.total + 1
            ctl := .running
            bus := [.read s.pc] })

/-! ### Stack, subroutine, software interrupt -/

/-- Every push writes in the stack page and every pull reads in it, `S` wraps modulo 256 in both directions, a pull
erases nothing, and neither changes anything else (R22, R57, R58). That a pull after a push gives the byte back rests on the
flat RAM (R51, R63), the model's choice of `BUS` (log entry 4). -/
def Obligations.StackStaysInItsPage : Prop :=
  ∀ (s : State) (v : Byte),
    (stackAddr s.sp).toNat = 256 + s.sp.toNat ∧
    (let a : Addr := BitVec.ofNat 16 (256 + s.sp.toNat);
      (push v s).mem.read a = v ∧ (push v s).sp.toNat = (s.sp.toNat + 255) % 256 ∧ (push v s).pc = s.pc ∧
        Frame [.sp] [] [a] s (push v s) ∧ Spends s.remaining [.write a v] s (push v s)) ∧
    (let a : Addr := BitVec.ofNat 16 (256 + (s.sp.toNat + 1) % 256);
      (pull s).1 = s.mem.read a ∧ (pull s).2.sp.toNat = (s.sp.toNat + 1) % 256 ∧ (pull s).2.pc = s.pc ∧
        Frame [.sp] [] [] s (pull s).2 ∧ Spends s.remaining [.read a] s (pull s).2) ∧
    ((pull (push v s)).1 = v ∧ (pull (push v s)).2.sp = s.sp)

/-- The status byte (R26, R29, R30): a push puts the flags, bit 5 = 1 and the given bit 4; the register reads with bit 4 = 0; a
load takes the six flags and discards bits 4 and 5, so that a push and a load restore all six. -/
def Obligations.StatusByteLayout : Prop :=
  ∀ (p : Status) (b : Bool) (v : Byte),
    (pushedP b p).toNat =
      128 * p.n.toNat + 64 * p.v.toNat + 32 + 16 * b.toNat + 8 * p.d.toNat + 4 * p.i.toNat + 2 * p.z.toNat + p.c.toNat ∧
    p.toByte = pushedP false p ∧ p.toByte &&& 0x30#8 = 0x20#8 ∧
    loadP v =
      { c := v.toNat.testBit 0, z := v.toNat.testBit 1, i := v.toNat.testBit 2, d := v.toNat.testBit 3,
        v := v.toNat.testBit 6, n := v.toNat.testBit 7 } ∧
    (loadP v).toByte = v &&& 0xCF#8 ||| 0x20#8 ∧
    loadP (pushedP b p) = p

/-- PHA and PHP (R170, R171): one byte written at `0x0100 + S`, `S` one lower, no flag changed; PHP's byte has bits 4 and 5
set. -/
def Obligations.PushesWriteOneStackByte : Prop :=
  ∀ s : State,
    ∀ q ∈ [(Instr.pha, 0x48#8, s.a), (Instr.php, 0x08#8, pushedP true s.p)],
      encode q.1 = [q.2.1] ∧
      ∃ t, exec q.1 s = .next t ∧ t.mem.read (stackAddr s.sp) = q.2.2 ∧ t.sp = s.sp - 1 ∧ t.pc = s.pc ∧
        Frame [.sp] [] [stackAddr s.sp] s t ∧ Spends 3 [.write (stackAddr s.sp) q.2.2] s t

/-- PLA and PLP (R172, R173): the byte at `0x0100 + (S + 1)`, `S` one higher; PLA sets Z and N from it, PLP takes the six flags
from its bits 0, 1, 2, 3, 6, 7. -/
def Obligations.PullsReadOneStackByte : Prop :=
  ∀ s : State,
    let v : Byte := s.mem.read (stackAddr (s.sp + 1))
    (encode .pla = [0x68#8] ∧
      ∃ t, exec .pla s = .next t ∧ t.a = v ∧ ZeroNegativeOf v t ∧ t.sp = s.sp + 1 ∧ t.pc = s.pc ∧
        Frame [.a, .sp] [.z, .n] [] s t ∧ Spends 4 [.read (stackAddr (s.sp + 1))] s t) ∧
    (encode .plp = [0x28#8] ∧
      ∃ t, exec .plp s = .next t ∧
        t.p = { c := v.toNat.testBit 0, z := v.toNat.testBit 1, i := v.toNat.testBit 2, d := v.toNat.testBit 3,
                v := v.toNat.testBit 6, n := v.toNat.testBit 7 } ∧
        t.sp = s.sp + 1 ∧ t.pc = s.pc ∧ Frame [.sp] [.c, .z, .i, .d, .v, .n] [] s t ∧
        Spends 4 [.read (stackAddr (s.sp + 1))] s t)

/-- JSR (R174): the address of its own last byte is pushed, high byte first, and `PC` takes the target. -/
def Obligations.JsrPushesItsLastByteAddress : Prop :=
  ∀ (target : Addr) (s : State),
    let ret : Nat := (s.pc.toNat + 65535) % 65536
    encode (.jsr target) = [0x20#8, loByte target, hiByte target] ∧
    ∃ t, exec (.jsr target) s = .next t ∧ t.pc = target ∧ t.sp = s.sp - 2 ∧
      (t.mem.read (stackAddr s.sp)).toNat = ret / 256 ∧ (t.mem.read (stackAddr (s.sp - 1))).toNat = ret % 256 ∧
      Frame [.sp] [] [stackAddr s.sp, stackAddr (s.sp - 1)] s t ∧
      Spends 6 [.write (stackAddr s.sp) (BitVec.ofNat 8 (ret / 256)), .write (stackAddr (s.sp - 1)) (BitVec.ofNat 8 ret)]
        s t

/-- RTS (R175): pulls an address, low byte first, and resumes at it plus 1, modulo 65536. -/
def Obligations.RtsResumesAfterThePulledAddress : Prop :=
  ∀ s : State,
    let lo : Nat := (s.mem.read (stackAddr (s.sp + 1))).toNat
    let hi : Nat := (s.mem.read (stackAddr (s.sp + 2))).toNat
    encode .rts = [0x60#8] ∧
    ∃ t, exec .rts s = .next t ∧ t.pc.toNat = (lo + 256 * hi + 1) % 65536 ∧ t.sp = s.sp + 2 ∧ Frame [.sp] [] [] s t ∧
      Spends 6 [.read (stackAddr (s.sp + 1)), .read (stackAddr (s.sp + 2))] s t

/-- BRK (R176): skips the signature byte without reading it and enters through `0xFFFE` with B set, whatever I is; `ctl`, D and
the host's inputs are not changed. -/
def Obligations.BrkEntersThroughTheIrqVector : Prop :=
  ∀ s : State,
    encode .brk = [0x00#8] ∧
    ∃ t, exec .brk s = .next t ∧ EnteredThrough 0xFFFE#16 true { s with pc := s.pc + 1 } t ∧ KeepsControl s t ∧
      Spends 7 (entryAccesses 0xFFFE#16 true { s with pc := s.pc + 1 }) s t

/-- RTI (R177): pulls the status, then `PC` low, then `PC` high, with no adjustment. -/
def Obligations.RtiRestoresStatusAndPc : Prop :=
  ∀ s : State,
    let v : Nat := (s.mem.read (stackAddr (s.sp + 1))).toNat
    let lo : Nat := (s.mem.read (stackAddr (s.sp + 2))).toNat
    let hi : Nat := (s.mem.read (stackAddr (s.sp + 3))).toNat
    encode .rti = [0x40#8] ∧
    ∃ t, exec .rti s = .next t ∧ t.pc.toNat = lo + 256 * hi ∧ t.sp = s.sp + 3 ∧
      t.p = { c := v.testBit 0, z := v.testBit 1, i := v.testBit 2, d := v.testBit 3, v := v.testBit 6, n := v.testBit 7 } ∧
      Frame [.sp] [.c, .z, .i, .d, .v, .n] [] s t ∧
      Spends 6 [.read (stackAddr (s.sp + 1)), .read (stackAddr (s.sp + 2)), .read (stackAddr (s.sp + 3))] s t

/-- PHA then PLA restores A and `S` (R172), and PHP then PLP restores all six flags and `S` (R30). That
the pull reads what the push wrote rests on the flat RAM (log entry 4). -/
def Obligations.PullAfterPushRestores : Prop :=
  ∀ s t : State,
    (exec .pha s = .next t → ∃ u, exec .pla t = .next u ∧ u.a = s.a ∧ u.sp = s.sp ∧ ZeroNegativeOf s.a u) ∧
    (exec .php s = .next t → ∃ u, exec .plp t = .next u ∧ u.p = s.p ∧ u.sp = s.sp)

/-- JSR then RTS returns to the instruction after the JSR and restores `S` (R175). That RTS reads what JSR wrote
rests on the flat RAM (log entry 4). -/
def Obligations.RtsAfterJsrReturns : Prop :=
  ∀ (s t : State) (target : Addr), exec (.jsr target) s = .next t →
    ∃ u, exec .rts t = .next u ∧ u.pc = s.pc ∧ u.sp = s.sp

/-! ### Flags, loads, stores, transfers, increments -/

/-- The seven flag instructions (R190 to R196): exactly the named flag takes its value, in two cycles with no bus access. -/
def Obligations.FlagInstructionsWriteOneFlag : Prop :=
  ∀ s : State,
    ∀ q ∈ [(Instr.clc, 0x18#8, Flag.c, false), (Instr.sec, 0x38#8, Flag.c, true), (Instr.cli, 0x58#8, Flag.i, false),
        (Instr.sei, 0x78#8, Flag.i, true), (Instr.cld, 0xD8#8, Flag.d, false), (Instr.sed, 0xF8#8, Flag.d, true),
        (Instr.clv, 0xB8#8, Flag.v, false)],
      encode q.1 = [q.2.1] ∧
      ∃ t, exec q.1 s = .next t ∧ t.flag q.2.2.1 = q.2.2.2 ∧ t.pc = s.pc ∧ Frame [] [q.2.2.1] [] s t ∧ Spends 2 [] s t

/-- LDA, LDX and LDY (R200 to R202): the register takes the operand, Z and N come from it. -/
def Obligations.LoadsWriteTheirRegister : Prop :=
  ∀ (op : ReadOperand) (s : State),
    let v : Byte := (operandValue op s).value
    (∀ b, op = .imm b → v = b) ∧ (∀ m, op = .mem m → v = s.mem.read (resolve m s).addr) ∧
    (∃ t, exec (.lda op) s = .next t ∧ WritesRegZN .a v s t) ∧
    (∃ t, exec (.ldx op) s = .next t ∧ WritesRegZN .x v s t) ∧
    (∃ t, exec (.ldy op) s = .next t ∧ WritesRegZN .y v s t)

/-- STA, STX and STY (R203 to R205): the byte at the effective address takes the register; no flag changes and the target is not
read. -/
def Obligations.StoresWriteOneByte : Prop :=
  ∀ (m : MemOperand) (s : State),
    let addr : Addr := (resolve m s).addr
    ∀ q ∈ [(Instr.sta m, s.a), (Instr.stx m, s.x), (Instr.sty m, s.y)],
      ∃ t, exec q.1 s = .next t ∧ t.mem.read addr = q.2 ∧ t.pc = s.pc ∧ Frame [] [] [addr] s t ∧
        t.bus = (resolve m s).after.bus ++ [.write addr q.2]

/-- The five transfers that set Z and N (R206 to R210): two cycles, no bus access. -/
def Obligations.TransfersSetZeroAndNegative : Prop :=
  ∀ s : State,
    ∀ q ∈ [(Instr.tax, 0xAA#8, Reg.x, s.a), (Instr.txa, 0x8A#8, Reg.a, s.x), (Instr.tay, 0xA8#8, Reg.y, s.a),
        (Instr.tya, 0x98#8, Reg.a, s.y), (Instr.tsx, 0xBA#8, Reg.x, s.sp)],
      encode q.1 = [q.2.1] ∧ ∃ t, exec q.1 s = .next t ∧ WritesRegZN q.2.2.1 q.2.2.2 s t ∧ Spends 2 [] s t

/-- TXS (R211): `S` takes X, and no flag changes. -/
def Obligations.TxsLeavesTheFlags : Prop :=
  ∀ s : State,
    encode .txs = [0x9A#8] ∧
    ∃ t, exec .txs s = .next t ∧ t.sp = s.x ∧ t.pc = s.pc ∧ Frame [.sp] [] [] s t ∧ Spends 2 [] s t

/-- INX, INY, DEX and DEY (R220 to R223): one more or one less modulo 256, Z and N from the result, C and V untouched. -/
def Obligations.RegisterIncrementsWrap : Prop :=
  ∀ s : State,
    ∀ q ∈ [(Instr.inx, 0xE8#8, Reg.x, (s.x.toNat + 1) % 256), (Instr.iny, 0xC8#8, Reg.y, (s.y.toNat + 1) % 256),
        (Instr.dex, 0xCA#8, Reg.x, (s.x.toNat + 255) % 256), (Instr.dey, 0x88#8, Reg.y, (s.y.toNat + 255) % 256)],
      encode q.1 = [q.2.1] ∧
      ∃ t, exec q.1 s = .next t ∧ WritesRegZN q.2.2.1 (BitVec.ofNat 8 q.2.2.2) s t ∧ Spends 2 [] s t

/-- INC and DEC (R224, R225): the byte at the effective address goes up or down by one modulo 256, Z and N come from it, and the
bus makes one read and one write of its address. -/
def Obligations.MemoryIncrementsWrap : Prop :=
  ∀ (m : MemOperand) (s : State),
    let addr : Addr := (resolve m s).addr
    let v : Nat := (s.mem.read addr).toNat
    ∀ q ∈ [(Instr.inc m, (v + 1) % 256), (Instr.dec m, (v + 255) % 256)],
      ∃ t, exec q.1 s = .next t ∧ (t.mem.read addr).toNat = q.2 ∧ ZeroNegativeOf (t.mem.read addr) t ∧ t.pc = s.pc ∧
        Frame [] [.z, .n] [addr] s t ∧
        t.bus = (resolve m s).after.bus ++ [.read addr, .write addr (t.mem.read addr)]

/-! ### Cycles and bus accesses by operand form -/

/-- The read instructions (R86, R118, R120): their counts by operand form, one more on a page cross in ABX, ABY and IZY, and the
accesses of the resolver followed by one read of the effective address. -/
def Obligations.ReadInstructionsCostAndAccesses : Prop :=
  ∀ (op : ReadOperand) (s : State),
    ∀ i ∈ [Instr.adc op, .sbc op, .cmp op, .cpx op, .cpy op, .lda op, .ldx op, .ldy op, .and op, .ora op, .eor op] ++
        (match op with
        | .mem m => [.bit m]
        | .imm _ => []),
      ∃ t, exec i s = .next t ∧
        match op with
        | .imm _ => Spends 2 [] s t
        | .mem m =>
          t.bus = (resolve m s).after.bus ++ [.read (resolve m s).addr] ∧
          t.remaining =
            match m with
            | .zp0 _ => 3
            | .zpx _ | .zpy _ | .abs _ => 4
            | .abx _ | .aby _ => if (resolve m s).cross then 5 else 4
            | .izx _ => 6
            | .izy _ => if (resolve m s).cross then 6 else 5

/-- The stores and the read-modify-write instructions, in the operand forms they have (R86, R203, R224, R140): their counts, with
no page-cross penalty. -/
def Obligations.WritingInstructionsCostNoPenalty : Prop :=
  ∀ (m : MemOperand) (s : State),
    (∀ i ∈ [Instr.sta m, .stx m, .sty m], i.wellFormed = true →
      ∃ t, exec i s = .next t ∧ t.remaining =
        match m with
        | .zp0 _ => 3
        | .zpx _ | .zpy _ | .abs _ => 4
        | .abx _ | .aby _ => 5
        | .izx _ | .izy _ => 6) ∧
    (∀ i ∈ [Instr.asl (.mem m), .lsr (.mem m), .rol (.mem m), .ror (.mem m), .inc m, .dec m], i.wellFormed = true →
      ∃ t, exec i s = .next t ∧ t.remaining =
        match m with
        | .zp0 _ => 5
        | .zpx _ | .abs _ => 6
        | .abx _ => 7
        | .zpy _ | .aby _ | .izx _ | .izy _ => 0)
end

