-- ==== Sys2Proof/Laws/Bits.lean ====
section
/-! SUPPORT. The byte-order and extension helpers as numbers (00_scope.md R7), so that no proof unfolds them. -/

namespace Sys2Proof

theorem cat_toNat (h l : Byte) : (cat h l).toNat = 256 * h.toNat + l.toNat := by
  have e := BitVec.toNat_append h l
  rw [← Nat.shiftLeft_add_eq_or_of_lt l.isLt, Nat.shiftLeft_eq] at e
  have e' : (cat h l).toNat = h.toNat * 2 ^ 8 + l.toNat := e
  omega

theorem hiByte_toNat (w : Addr) : (hiByte w).toNat = w.toNat / 256 := by
  have := w.isLt
  simp only [hiByte, BitVec.extractLsb'_toNat, Nat.shiftRight_eq_div_pow]
  omega

theorem loByte_toNat (w : Addr) : (loByte w).toNat = w.toNat % 256 := by
  simp [loByte, BitVec.extractLsb'_toNat]

theorem zext16_toNat (b : Byte) : (zext16 b).toNat = b.toNat := by
  have := b.isLt
  simp only [zext16, BitVec.toNat_setWidth]
  omega

theorem sext16_toInt (b : Byte) : (sext16 b).toInt = b.toInt := by
  simp only [sext16]
  exact BitVec.toInt_signExtend_of_le (by decide)

@[simp] theorem cat_hiByte_loByte (w : Addr) : cat (hiByte w) (loByte w) = w := by
  apply BitVec.eq_of_toNat_eq
  rw [cat_toNat, hiByte_toNat, loByte_toNat]
  omega

@[simp] theorem hiByte_cat (h l : Byte) : hiByte (cat h l) = h := by
  apply BitVec.eq_of_toNat_eq
  have := l.isLt
  rw [hiByte_toNat, cat_toNat]
  omega

@[simp] theorem loByte_cat (h l : Byte) : loByte (cat h l) = l := by
  apply BitVec.eq_of_toNat_eq
  have := l.isLt
  rw [loByte_toNat, cat_toNat]
  omega

/-- Pages as numbers: a page is the address divided by 256 (R12). -/
theorem pagesDiffer_iff (a b : Addr) : pagesDiffer a b = true ↔ a.toNat / 256 ≠ b.toNat / 256 := by
  simp only [pagesDiffer, page, bne_iff_ne, ne_eq, ← BitVec.toNat_inj, hiByte_toNat]

end Sys2Proof
end

