-- ==== Sys2Proof/Laws/State.lean ====
section
/-! SUPPORT. One lemma per field of `State` per named update, each true by definition, so that no proof unfolds an update. -/

namespace Sys2Proof.Machine

@[simp] theorem memRead_value (a : Addr) (s : State) : (memRead a s).1 = s.mem.read a := rfl

@[simp] theorem memRead_a (a : Addr) (s : State) :
    ((memRead a s).2).a = s.a := rfl

@[simp] theorem memRead_x (a : Addr) (s : State) :
    ((memRead a s).2).x = s.x := rfl

@[simp] theorem memRead_y (a : Addr) (s : State) :
    ((memRead a s).2).y = s.y := rfl

@[simp] theorem memRead_sp (a : Addr) (s : State) :
    ((memRead a s).2).sp = s.sp := rfl

@[simp] theorem memRead_p (a : Addr) (s : State) :
    ((memRead a s).2).p = s.p := rfl

@[simp] theorem memRead_pc (a : Addr) (s : State) :
    ((memRead a s).2).pc = s.pc := rfl

@[simp] theorem memRead_remaining (a : Addr) (s : State) :
    ((memRead a s).2).remaining = s.remaining := rfl

@[simp] theorem memRead_total (a : Addr) (s : State) :
    ((memRead a s).2).total = s.total := rfl

@[simp] theorem memRead_ctl (a : Addr) (s : State) :
    ((memRead a s).2).ctl = s.ctl := rfl

@[simp] theorem memRead_resetPending (a : Addr) (s : State) :
    ((memRead a s).2).resetPending = s.resetPending := rfl

@[simp] theorem memRead_nmiPending (a : Addr) (s : State) :
    ((memRead a s).2).nmiPending = s.nmiPending := rfl

@[simp] theorem memRead_irqLine (a : Addr) (s : State) :
    ((memRead a s).2).irqLine = s.irqLine := rfl

@[simp] theorem memRead_mem (a : Addr) (s : State) :
    ((memRead a s).2).mem = s.mem := rfl

@[simp] theorem memRead_bus (a : Addr) (s : State) :
    ((memRead a s).2).bus = s.bus ++ [.read a] := rfl

@[simp] theorem memRead_freeDraws (a : Addr) (s : State) :
    ((memRead a s).2).freeDraws = s.freeDraws := rfl

@[simp] theorem memWrite_a (a : Addr) (v : Byte) (s : State) :
    (memWrite a v s).a = s.a := rfl

@[simp] theorem memWrite_x (a : Addr) (v : Byte) (s : State) :
    (memWrite a v s).x = s.x := rfl

@[simp] theorem memWrite_y (a : Addr) (v : Byte) (s : State) :
    (memWrite a v s).y = s.y := rfl

@[simp] theorem memWrite_sp (a : Addr) (v : Byte) (s : State) :
    (memWrite a v s).sp = s.sp := rfl

@[simp] theorem memWrite_p (a : Addr) (v : Byte) (s : State) :
    (memWrite a v s).p = s.p := rfl

@[simp] theorem memWrite_pc (a : Addr) (v : Byte) (s : State) :
    (memWrite a v s).pc = s.pc := rfl

@[simp] theorem memWrite_remaining (a : Addr) (v : Byte) (s : State) :
    (memWrite a v s).remaining = s.remaining := rfl

@[simp] theorem memWrite_total (a : Addr) (v : Byte) (s : State) :
    (memWrite a v s).total = s.total := rfl

@[simp] theorem memWrite_ctl (a : Addr) (v : Byte) (s : State) :
    (memWrite a v s).ctl = s.ctl := rfl

@[simp] theorem memWrite_resetPending (a : Addr) (v : Byte) (s : State) :
    (memWrite a v s).resetPending = s.resetPending := rfl

@[simp] theorem memWrite_nmiPending (a : Addr) (v : Byte) (s : State) :
    (memWrite a v s).nmiPending = s.nmiPending := rfl

@[simp] theorem memWrite_irqLine (a : Addr) (v : Byte) (s : State) :
    (memWrite a v s).irqLine = s.irqLine := rfl

@[simp] theorem memWrite_mem (a : Addr) (v : Byte) (s : State) :
    (memWrite a v s).mem = s.mem.write a v := rfl

@[simp] theorem memWrite_bus (a : Addr) (v : Byte) (s : State) :
    (memWrite a v s).bus = s.bus ++ [.write a v] := rfl

@[simp] theorem memWrite_freeDraws (a : Addr) (v : Byte) (s : State) :
    (memWrite a v s).freeDraws = s.freeDraws := rfl

@[simp] theorem charge_a (n : Nat) (s : State) :
    (charge n s).a = s.a := rfl

@[simp] theorem charge_x (n : Nat) (s : State) :
    (charge n s).x = s.x := rfl

@[simp] theorem charge_y (n : Nat) (s : State) :
    (charge n s).y = s.y := rfl

@[simp] theorem charge_sp (n : Nat) (s : State) :
    (charge n s).sp = s.sp := rfl

@[simp] theorem charge_p (n : Nat) (s : State) :
    (charge n s).p = s.p := rfl

@[simp] theorem charge_pc (n : Nat) (s : State) :
    (charge n s).pc = s.pc := rfl

@[simp] theorem charge_remaining (n : Nat) (s : State) :
    (charge n s).remaining = n := rfl

@[simp] theorem charge_total (n : Nat) (s : State) :
    (charge n s).total = s.total := rfl

@[simp] theorem charge_ctl (n : Nat) (s : State) :
    (charge n s).ctl = s.ctl := rfl

@[simp] theorem charge_resetPending (n : Nat) (s : State) :
    (charge n s).resetPending = s.resetPending := rfl

@[simp] theorem charge_nmiPending (n : Nat) (s : State) :
    (charge n s).nmiPending = s.nmiPending := rfl

@[simp] theorem charge_irqLine (n : Nat) (s : State) :
    (charge n s).irqLine = s.irqLine := rfl

@[simp] theorem charge_mem (n : Nat) (s : State) :
    (charge n s).mem = s.mem := rfl

@[simp] theorem charge_bus (n : Nat) (s : State) :
    (charge n s).bus = s.bus := rfl

@[simp] theorem charge_freeDraws (n : Nat) (s : State) :
    (charge n s).freeDraws = s.freeDraws := rfl

@[simp] theorem push_a (v : Byte) (s : State) :
    (push v s).a = s.a := rfl

@[simp] theorem push_x (v : Byte) (s : State) :
    (push v s).x = s.x := rfl

@[simp] theorem push_y (v : Byte) (s : State) :
    (push v s).y = s.y := rfl

@[simp] theorem push_sp (v : Byte) (s : State) :
    (push v s).sp = s.sp - 1 := rfl

@[simp] theorem push_p (v : Byte) (s : State) :
    (push v s).p = s.p := rfl

@[simp] theorem push_pc (v : Byte) (s : State) :
    (push v s).pc = s.pc := rfl

@[simp] theorem push_remaining (v : Byte) (s : State) :
    (push v s).remaining = s.remaining := rfl

@[simp] theorem push_total (v : Byte) (s : State) :
    (push v s).total = s.total := rfl

@[simp] theorem push_ctl (v : Byte) (s : State) :
    (push v s).ctl = s.ctl := rfl

@[simp] theorem push_resetPending (v : Byte) (s : State) :
    (push v s).resetPending = s.resetPending := rfl

@[simp] theorem push_nmiPending (v : Byte) (s : State) :
    (push v s).nmiPending = s.nmiPending := rfl

@[simp] theorem push_irqLine (v : Byte) (s : State) :
    (push v s).irqLine = s.irqLine := rfl

@[simp] theorem push_mem (v : Byte) (s : State) :
    (push v s).mem = s.mem.write (stackAddr s.sp) v := rfl

@[simp] theorem push_bus (v : Byte) (s : State) :
    (push v s).bus = s.bus ++ [.write (stackAddr s.sp) v] := rfl

@[simp] theorem push_freeDraws (v : Byte) (s : State) :
    (push v s).freeDraws = s.freeDraws := rfl

@[simp] theorem pull_value (s : State) : (pull s).1 = s.mem.read (stackAddr (s.sp + 1)) := rfl

@[simp] theorem pull_a (s : State) :
    ((pull s).2).a = s.a := rfl

@[simp] theorem pull_x (s : State) :
    ((pull s).2).x = s.x := rfl

@[simp] theorem pull_y (s : State) :
    ((pull s).2).y = s.y := rfl

@[simp] theorem pull_sp (s : State) :
    ((pull s).2).sp = s.sp + 1 := rfl

@[simp] theorem pull_p (s : State) :
    ((pull s).2).p = s.p := rfl

@[simp] theorem pull_pc (s : State) :
    ((pull s).2).pc = s.pc := rfl

@[simp] theorem pull_remaining (s : State) :
    ((pull s).2).remaining = s.remaining := rfl

@[simp] theorem pull_total (s : State) :
    ((pull s).2).total = s.total := rfl

@[simp] theorem pull_ctl (s : State) :
    ((pull s).2).ctl = s.ctl := rfl

@[simp] theorem pull_resetPending (s : State) :
    ((pull s).2).resetPending = s.resetPending := rfl

@[simp] theorem pull_nmiPending (s : State) :
    ((pull s).2).nmiPending = s.nmiPending := rfl

@[simp] theorem pull_irqLine (s : State) :
    ((pull s).2).irqLine = s.irqLine := rfl

@[simp] theorem pull_mem (s : State) :
    ((pull s).2).mem = s.mem := rfl

@[simp] theorem pull_bus (s : State) :
    ((pull s).2).bus = s.bus ++ [.read (stackAddr (s.sp + 1))] := rfl

@[simp] theorem pull_freeDraws (s : State) :
    ((pull s).2).freeDraws = s.freeDraws := rfl

@[simp] theorem fetch8_value (s : State) : (fetch8 s).1 = s.mem.read s.pc := rfl

@[simp] theorem fetch8_a (s : State) :
    ((fetch8 s).2).a = s.a := rfl

@[simp] theorem fetch8_x (s : State) :
    ((fetch8 s).2).x = s.x := rfl

@[simp] theorem fetch8_y (s : State) :
    ((fetch8 s).2).y = s.y := rfl

@[simp] theorem fetch8_sp (s : State) :
    ((fetch8 s).2).sp = s.sp := rfl

@[simp] theorem fetch8_p (s : State) :
    ((fetch8 s).2).p = s.p := rfl

@[simp] theorem fetch8_pc (s : State) :
    ((fetch8 s).2).pc = s.pc + 1 := rfl

@[simp] theorem fetch8_remaining (s : State) :
    ((fetch8 s).2).remaining = s.remaining := rfl

@[simp] theorem fetch8_total (s : State) :
    ((fetch8 s).2).total = s.total := rfl

@[simp] theorem fetch8_ctl (s : State) :
    ((fetch8 s).2).ctl = s.ctl := rfl

@[simp] theorem fetch8_resetPending (s : State) :
    ((fetch8 s).2).resetPending = s.resetPending := rfl

@[simp] theorem fetch8_nmiPending (s : State) :
    ((fetch8 s).2).nmiPending = s.nmiPending := rfl

@[simp] theorem fetch8_irqLine (s : State) :
    ((fetch8 s).2).irqLine = s.irqLine := rfl

@[simp] theorem fetch8_mem (s : State) :
    ((fetch8 s).2).mem = s.mem := rfl

@[simp] theorem fetch8_bus (s : State) :
    ((fetch8 s).2).bus = s.bus ++ [.read s.pc] := rfl

@[simp] theorem fetch8_freeDraws (s : State) :
    ((fetch8 s).2).freeDraws = s.freeDraws := rfl

@[simp] theorem triggerReset_a (s : State) :
    (triggerReset s).a = s.a := rfl

@[simp] theorem triggerReset_x (s : State) :
    (triggerReset s).x = s.x := rfl

@[simp] theorem triggerReset_y (s : State) :
    (triggerReset s).y = s.y := rfl

@[simp] theorem triggerReset_sp (s : State) :
    (triggerReset s).sp = s.sp := rfl

@[simp] theorem triggerReset_p (s : State) :
    (triggerReset s).p = s.p := rfl

@[simp] theorem triggerReset_pc (s : State) :
    (triggerReset s).pc = s.pc := rfl

@[simp] theorem triggerReset_remaining (s : State) :
    (triggerReset s).remaining = s.remaining := rfl

@[simp] theorem triggerReset_total (s : State) :
    (triggerReset s).total = s.total := rfl

@[simp] theorem triggerReset_ctl (s : State) :
    (triggerReset s).ctl = s.ctl := rfl

@[simp] theorem triggerReset_resetPending (s : State) :
    (triggerReset s).resetPending = true := rfl

@[simp] theorem triggerReset_nmiPending (s : State) :
    (triggerReset s).nmiPending = s.nmiPending := rfl

@[simp] theorem triggerReset_irqLine (s : State) :
    (triggerReset s).irqLine = s.irqLine := rfl

@[simp] theorem triggerReset_mem (s : State) :
    (triggerReset s).mem = s.mem := rfl

@[simp] theorem triggerReset_bus (s : State) :
    (triggerReset s).bus = s.bus := rfl

@[simp] theorem triggerReset_freeDraws (s : State) :
    (triggerReset s).freeDraws = s.freeDraws := rfl

@[simp] theorem triggerNmi_a (s : State) :
    (triggerNmi s).a = s.a := rfl

@[simp] theorem triggerNmi_x (s : State) :
    (triggerNmi s).x = s.x := rfl

@[simp] theorem triggerNmi_y (s : State) :
    (triggerNmi s).y = s.y := rfl

@[simp] theorem triggerNmi_sp (s : State) :
    (triggerNmi s).sp = s.sp := rfl

@[simp] theorem triggerNmi_p (s : State) :
    (triggerNmi s).p = s.p := rfl

@[simp] theorem triggerNmi_pc (s : State) :
    (triggerNmi s).pc = s.pc := rfl

@[simp] theorem triggerNmi_remaining (s : State) :
    (triggerNmi s).remaining = s.remaining := rfl

@[simp] theorem triggerNmi_total (s : State) :
    (triggerNmi s).total = s.total := rfl

@[simp] theorem triggerNmi_ctl (s : State) :
    (triggerNmi s).ctl = s.ctl := rfl

@[simp] theorem triggerNmi_resetPending (s : State) :
    (triggerNmi s).resetPending = s.resetPending := rfl

@[simp] theorem triggerNmi_nmiPending (s : State) :
    (triggerNmi s).nmiPending = true := rfl

@[simp] theorem triggerNmi_irqLine (s : State) :
    (triggerNmi s).irqLine = s.irqLine := rfl

@[simp] theorem triggerNmi_mem (s : State) :
    (triggerNmi s).mem = s.mem := rfl

@[simp] theorem triggerNmi_bus (s : State) :
    (triggerNmi s).bus = s.bus := rfl

@[simp] theorem triggerNmi_freeDraws (s : State) :
    (triggerNmi s).freeDraws = s.freeDraws := rfl

@[simp] theorem setIrqLine_a (b : Bool) (s : State) :
    (setIrqLine b s).a = s.a := rfl

@[simp] theorem setIrqLine_x (b : Bool) (s : State) :
    (setIrqLine b s).x = s.x := rfl

@[simp] theorem setIrqLine_y (b : Bool) (s : State) :
    (setIrqLine b s).y = s.y := rfl

@[simp] theorem setIrqLine_sp (b : Bool) (s : State) :
    (setIrqLine b s).sp = s.sp := rfl

@[simp] theorem setIrqLine_p (b : Bool) (s : State) :
    (setIrqLine b s).p = s.p := rfl

@[simp] theorem setIrqLine_pc (b : Bool) (s : State) :
    (setIrqLine b s).pc = s.pc := rfl

@[simp] theorem setIrqLine_remaining (b : Bool) (s : State) :
    (setIrqLine b s).remaining = s.remaining := rfl

@[simp] theorem setIrqLine_total (b : Bool) (s : State) :
    (setIrqLine b s).total = s.total := rfl

@[simp] theorem setIrqLine_ctl (b : Bool) (s : State) :
    (setIrqLine b s).ctl = s.ctl := rfl

@[simp] theorem setIrqLine_resetPending (b : Bool) (s : State) :
    (setIrqLine b s).resetPending = s.resetPending := rfl

@[simp] theorem setIrqLine_nmiPending (b : Bool) (s : State) :
    (setIrqLine b s).nmiPending = s.nmiPending := rfl

@[simp] theorem setIrqLine_irqLine (b : Bool) (s : State) :
    (setIrqLine b s).irqLine = b := rfl

@[simp] theorem setIrqLine_mem (b : Bool) (s : State) :
    (setIrqLine b s).mem = s.mem := rfl

@[simp] theorem setIrqLine_bus (b : Bool) (s : State) :
    (setIrqLine b s).bus = s.bus := rfl

@[simp] theorem setIrqLine_freeDraws (b : Bool) (s : State) :
    (setIrqLine b s).freeDraws = s.freeDraws := rfl

@[simp] theorem hostWrite_a (a : Addr) (bytes : List Byte) (s : State) :
    (hostWrite a bytes s).a = s.a := rfl

@[simp] theorem hostWrite_x (a : Addr) (bytes : List Byte) (s : State) :
    (hostWrite a bytes s).x = s.x := rfl

@[simp] theorem hostWrite_y (a : Addr) (bytes : List Byte) (s : State) :
    (hostWrite a bytes s).y = s.y := rfl

@[simp] theorem hostWrite_sp (a : Addr) (bytes : List Byte) (s : State) :
    (hostWrite a bytes s).sp = s.sp := rfl

@[simp] theorem hostWrite_p (a : Addr) (bytes : List Byte) (s : State) :
    (hostWrite a bytes s).p = s.p := rfl

@[simp] theorem hostWrite_pc (a : Addr) (bytes : List Byte) (s : State) :
    (hostWrite a bytes s).pc = s.pc := rfl

@[simp] theorem hostWrite_remaining (a : Addr) (bytes : List Byte) (s : State) :
    (hostWrite a bytes s).remaining = s.remaining := rfl

@[simp] theorem hostWrite_total (a : Addr) (bytes : List Byte) (s : State) :
    (hostWrite a bytes s).total = s.total := rfl

@[simp] theorem hostWrite_ctl (a : Addr) (bytes : List Byte) (s : State) :
    (hostWrite a bytes s).ctl = s.ctl := rfl

@[simp] theorem hostWrite_resetPending (a : Addr) (bytes : List Byte) (s : State) :
    (hostWrite a bytes s).resetPending = s.resetPending := rfl

@[simp] theorem hostWrite_nmiPending (a : Addr) (bytes : List Byte) (s : State) :
    (hostWrite a bytes s).nmiPending = s.nmiPending := rfl

@[simp] theorem hostWrite_irqLine (a : Addr) (bytes : List Byte) (s : State) :
    (hostWrite a bytes s).irqLine = s.irqLine := rfl

@[simp] theorem hostWrite_mem (a : Addr) (bytes : List Byte) (s : State) :
    (hostWrite a bytes s).mem = s.mem.writeBytes a bytes := rfl

@[simp] theorem hostWrite_bus (a : Addr) (bytes : List Byte) (s : State) :
    (hostWrite a bytes s).bus = s.bus := rfl

@[simp] theorem hostWrite_freeDraws (a : Addr) (bytes : List Byte) (s : State) :
    (hostWrite a bytes s).freeDraws = s.freeDraws := rfl

@[simp] theorem setZN_c (w : Byte) (p : Status) :
    (setZN w p).c = p.c := rfl

@[simp] theorem setZN_z (w : Byte) (p : Status) :
    (setZN w p).z = (w == 0) := rfl

@[simp] theorem setZN_i (w : Byte) (p : Status) :
    (setZN w p).i = p.i := rfl

@[simp] theorem setZN_d (w : Byte) (p : Status) :
    (setZN w p).d = p.d := rfl

@[simp] theorem setZN_v (w : Byte) (p : Status) :
    (setZN w p).v = p.v := rfl

@[simp] theorem setZN_n (w : Byte) (p : Status) :
    (setZN w p).n = w.getLsbD 7 := rfl

@[simp] theorem compareFlags_c (r m : Byte) (p : Status) :
    (compareFlags r m p).c = decide (m.toNat ≤ r.toNat) := rfl

@[simp] theorem compareFlags_z (r m : Byte) (p : Status) :
    (compareFlags r m p).z = (r == m) := rfl

@[simp] theorem compareFlags_i (r m : Byte) (p : Status) :
    (compareFlags r m p).i = p.i := rfl

@[simp] theorem compareFlags_d (r m : Byte) (p : Status) :
    (compareFlags r m p).d = p.d := rfl

@[simp] theorem compareFlags_v (r m : Byte) (p : Status) :
    (compareFlags r m p).v = p.v := rfl

@[simp] theorem compareFlags_n (r m : Byte) (p : Status) :
    (compareFlags r m p).n = (r - m).getLsbD 7 := rfl

@[simp] theorem bitFlags_c (a m : Byte) (p : Status) :
    (bitFlags a m p).c = p.c := rfl

@[simp] theorem bitFlags_z (a m : Byte) (p : Status) :
    (bitFlags a m p).z = (a &&& m == 0) := rfl

@[simp] theorem bitFlags_i (a m : Byte) (p : Status) :
    (bitFlags a m p).i = p.i := rfl

@[simp] theorem bitFlags_d (a m : Byte) (p : Status) :
    (bitFlags a m p).d = p.d := rfl

@[simp] theorem bitFlags_v (a m : Byte) (p : Status) :
    (bitFlags a m p).v = m.getLsbD 6 := rfl

@[simp] theorem bitFlags_n (a m : Byte) (p : Status) :
    (bitFlags a m p).n = m.getLsbD 7 := rfl

@[simp] theorem shiftFlags_c (q : ShiftResult) (p : Status) :
    (shiftFlags q p).c = q.carry := rfl

@[simp] theorem shiftFlags_z (q : ShiftResult) (p : Status) :
    (shiftFlags q p).z = (q.r == 0) := rfl

@[simp] theorem shiftFlags_i (q : ShiftResult) (p : Status) :
    (shiftFlags q p).i = p.i := rfl

@[simp] theorem shiftFlags_d (q : ShiftResult) (p : Status) :
    (shiftFlags q p).d = p.d := rfl

@[simp] theorem shiftFlags_v (q : ShiftResult) (p : Status) :
    (shiftFlags q p).v = p.v := rfl

@[simp] theorem shiftFlags_n (q : ShiftResult) (p : Status) :
    (shiftFlags q p).n = q.r.getLsbD 7 := rfl

end Sys2Proof.Machine
end

