-- ==== Sys2Proof/Laws/Memory.lean ====
section
/-! SUPPORT. The laws of the memory: a read sees the latest write to its address and no other, for every list of cells, and
every operation keeps the canonical form. -/

namespace Sys2Proof.Machine

theorem Memory.find_insert (m : Memory) (c : Host.Cell) (n : Nat) (h : ∀ d ∈ m, d.1 ≠ c.1) :
    (Memory.insert m c).find? (fun d => d.1 == n) =
      if c.1 = n then some c else m.find? (fun d => d.1 == n) := by
  induction m with
  | nil => by_cases hc : c.1 = n <;> simp [Memory.insert, hc]
  | cons d rest ih =>
    have hd : d.1 ≠ c.1 := h d (by simp)
    have ih := ih fun e he => h e (by simp [he])
    unfold Memory.insert
    split
    · by_cases hc : c.1 = n
      · simp [hc]
      · rw [List.find?_cons_of_neg (by simp [hc]), if_neg hc]
    · by_cases hdn : d.1 = n
      · have hcn : c.1 ≠ n := fun e => hd (by rw [hdn, e])
        rw [List.find?_cons_of_pos (by simp [hdn]), List.find?_cons_of_pos (by simp [hdn]), if_neg hcn]
      · rw [List.find?_cons_of_neg (by simp [hdn]), List.find?_cons_of_neg (by simp [hdn]), ih]

theorem Memory.find_without (m : Memory) (k n : Nat) :
    (m.filter (fun c => c.1 != k)).find? (fun c => c.1 == n) =
      if n = k then none else m.find? (fun c => c.1 == n) := by
  rw [List.find?_filter]
  split
  · subst_vars; simp
  · congr 1; funext c; by_cases hc : c.1 = n <;> simp_all

theorem Memory.find_write (m : Memory) (a b : Addr) (v : Byte) :
    (m.write a v).find? (fun c => c.1 == b.toNat) =
      if b = a then (if v = Config.unwrittenByte then none else some (a.toNat, v))
      else m.find? (fun c => c.1 == b.toNat) := by
  have hab : (b.toNat = a.toNat) ↔ b = a := BitVec.toNat_inj
  have hba : (a.toNat = b.toNat) ↔ b = a := by rw [eq_comm, hab]
  unfold Memory.write
  simp only
  split
  · simp only [Memory.find_without, hab]
  · rw [Memory.find_insert _ _ _ (by simp), Memory.find_without]
    by_cases h : b = a
    · simp [h]
    · simp [h, hab, hba]

/-- A read after a write: the written byte at its own address, the old byte everywhere else. -/
@[simp] theorem Memory.read_write (m : Memory) (a b : Addr) (v : Byte) :
    (m.write a v).read b = if b = a then v else m.read b := by
  unfold Memory.read
  rw [Memory.find_write]
  by_cases h : b = a
  · by_cases hv : v = Config.unwrittenByte <;> simp [h, hv]
  · simp [h]

theorem Memory.mem_insert (m : Memory) (c d : Host.Cell) : d ∈ Memory.insert m c ↔ d = c ∨ d ∈ m := by
  induction m with
  | nil => simp [Memory.insert]
  | cons e rest ih =>
    unfold Memory.insert
    split
    · simp
    · simp [ih]; tauto

theorem Memory.insert_sorted (m : Memory) (c : Host.Cell) (h : m.Pairwise (fun d e => d.1 < e.1))
    (hne : ∀ d ∈ m, d.1 ≠ c.1) : (Memory.insert m c).Pairwise (fun d e => d.1 < e.1) := by
  induction m with
  | nil => simp [Memory.insert]
  | cons e rest ih =>
    obtain ⟨he, hrest⟩ := List.pairwise_cons.1 h
    unfold Memory.insert
    split
    · rename_i hlt
      refine List.pairwise_cons.2 ⟨fun d hd => ?_, h⟩
      rcases List.mem_cons.1 hd with rfl | hd
      · exact hlt
      · exact hlt.trans (he d hd)
    · rename_i hlt
      have hec : e.1 < c.1 := lt_of_le_of_ne (not_lt.1 hlt) (hne e (by simp))
      refine List.pairwise_cons.2 ⟨fun d hd => ?_, ih hrest fun d hd => hne d (by simp [hd])⟩
      rcases (Memory.mem_insert rest c d).1 hd with rfl | hd
      · exact hec
      · exact he d hd

/-- A write keeps the canonical form. -/
theorem Memory.write_wf {m : Memory} (h : m.wf) (a : Addr) (v : Byte) : (m.write a v).wf := by
  obtain ⟨hs, hc⟩ := h
  have hs' : (m.filter (fun c => c.1 != a.toNat)).Pairwise (fun d e => d.1 < e.1) := hs.filter _
  have hc' : ∀ c ∈ m.filter (fun c => c.1 != a.toNat), c.1 < 65536 ∧ c.2 ≠ Config.unwrittenByte :=
    fun c hm => hc c (List.mem_filter.1 hm).1
  unfold Memory.write
  split
  · exact ⟨hs', hc'⟩
  · rename_i hv
    refine ⟨Memory.insert_sorted _ _ hs' (by simp), fun c hm => ?_⟩
    rcases (Memory.mem_insert _ _ _).1 hm with rfl | hm
    · exact ⟨a.isLt, hv⟩
    · exact hc' c hm

/-- Writing bytes keeps the canonical form. -/
theorem Memory.writeBytes_wf {m : Memory} (h : m.wf) (a : Addr) (bytes : List Byte) : (m.writeBytes a bytes).wf := by
  induction bytes generalizing m a with
  | nil => exact h
  | cons v vs ih => exact ih (Memory.write_wf h a v) _

/-- A memory that lists nothing has the canonical form. -/
theorem Memory.nil_wf : Memory.wf [] := by simp [Memory.wf]

/-- Every byte of a memory that lists nothing. -/
@[simp] theorem Memory.read_nil (a : Addr) : Memory.read [] a = Config.unwrittenByte := rfl

end Sys2Proof.Machine
end

