-- ==== Sys2Proof/Laws/Ops.lean ====
section
/-! SUPPORT. For each named operation over the stack, the vectors and the controller, one equation that says everything it
does, and the facts about stack addresses that keep pushed bytes apart. -/

namespace Sys2Proof.Machine

theorem read16_eq (a : Addr) (s : State) :
    read16 a s =
      (cat (s.mem.read (a + 1)) (s.mem.read a), { s with bus := s.bus ++ [.read a, .read (a + 1)] }) := by
  simp [read16, memRead]

theorem push16_eq (w : Addr) (s : State) :
    push16 w s =
      { s with
        sp := s.sp - 1 - 1
        mem := (s.mem.write (stackAddr s.sp) (hiByte w)).write (stackAddr (s.sp - 1)) (loByte w)
        bus := s.bus ++ [.write (stackAddr s.sp) (hiByte w), .write (stackAddr (s.sp - 1)) (loByte w)] } := by
  simp [push16, push, memWrite]

theorem pull16_eq (s : State) :
    pull16 s =
      (cat (s.mem.read (stackAddr (s.sp + 1 + 1))) (s.mem.read (stackAddr (s.sp + 1))),
        { s with
          sp := s.sp + 1 + 1
          bus := s.bus ++ [.read (stackAddr (s.sp + 1)), .read (stackAddr (s.sp + 1 + 1))] }) := by
  simp [pull16, pull, memRead]

theorem stackAddr_toNat (b : Byte) : (stackAddr b).toNat = 256 + b.toNat := by
  have := b.isLt
  simp [stackAddr, Config.stackPage, zext16]
  omega

theorem stackAddr_inj {b c : Byte} : stackAddr b = stackAddr c ↔ b = c := by
  rw [← BitVec.toNat_inj, stackAddr_toNat, stackAddr_toNat, ← BitVec.toNat_inj]
  omega

theorem stackAddr_ne_of_le {b : Byte} {a : Addr} (h : 512 ≤ a.toNat) : a ≠ stackAddr b := by
  intro e
  have := b.isLt
  rw [e, stackAddr_toNat] at h
  omega

/-- The memory after the three pushes of an interrupt entry. -/
theorem enterInterrupt_eq (vector : Addr) (b : Bool) (s : State) (h : 512 ≤ vector.toNat)
    (h' : 512 ≤ (vector + 1).toNat) :
    enterInterrupt vector b s =
      { s with
        sp := s.sp - 1 - 1 - 1
        p := { s.p with i := true }
        pc := cat (s.mem.read (vector + 1)) (s.mem.read vector)
        mem := ((s.mem.write (stackAddr s.sp) (hiByte s.pc)).write (stackAddr (s.sp - 1)) (loByte s.pc)).write
          (stackAddr (s.sp - 1 - 1)) (pushedP b s.p)
        bus := s.bus ++
          [.write (stackAddr s.sp) (hiByte s.pc), .write (stackAddr (s.sp - 1)) (loByte s.pc),
            .write (stackAddr (s.sp - 1 - 1)) (pushedP b s.p), .read vector, .read (vector + 1)] } := by
  have e : ∀ c, vector + 1#16 ≠ stackAddr c := fun c => stackAddr_ne_of_le h'
  simp [enterInterrupt, read16_eq, push16_eq, push, memWrite, stackAddr_ne_of_le h, e]

theorem returnFromInterrupt_eq (s : State) :
    returnFromInterrupt s =
      { s with
        sp := s.sp + 1 + 1 + 1
        p := loadP (s.mem.read (stackAddr (s.sp + 1)))
        pc := cat (s.mem.read (stackAddr (s.sp + 1 + 1 + 1))) (s.mem.read (stackAddr (s.sp + 1 + 1)))
        bus := s.bus ++
          [.read (stackAddr (s.sp + 1)), .read (stackAddr (s.sp + 1 + 1)), .read (stackAddr (s.sp + 1 + 1 + 1))] } := by
  simp [returnFromInterrupt, pull16_eq, pull, memRead]

theorem resetSequence_eq (s : State) :
    resetSequence s =
      { s with
        resetPending := false
        nmiPending := false
        p := { s.p with i := true }
        pc := cat (s.mem.read 0xFFFD#16) (s.mem.read 0xFFFC#16)
        remaining := 7
        ctl := .servicingReset
        bus := s.bus ++ [.read 0xFFFC#16, .read 0xFFFD#16] } := by
  simp [resetSequence, read16_eq, Config.vecReset, Config.resetCycles]

theorem nmiSequence_eq (s : State) :
    nmiSequence s =
      { enterInterrupt 0xFFFA#16 false { s with nmiPending := false } with
        remaining := 7
        ctl := .servicingNmi } := rfl

theorem irqSequence_eq (s : State) :
    irqSequence s = { enterInterrupt 0xFFFE#16 false s with remaining := 7, ctl := .servicingIrq } := rfl

end Sys2Proof.Machine
end

