-- ==== Sys2Proof/Laws/Operands.lean ====
section
/-! SUPPORT. What the resolver and the instruction shapes do, one lemma each: resolving and reading an operand change the bus
record only, and each shape answers a next state. -/

namespace Sys2Proof.Machine

theorem zeroPageWord_eq (p : Byte) (s : State) :
    zeroPageWord p s =
      (cat (s.mem.read (zext16 (p + 1))) (s.mem.read (zext16 p)),
        { s with bus := s.bus ++ [.read (zext16 p), .read (zext16 (p + 1))] }) := by
  simp [zeroPageWord, memRead]

/-- The accesses the resolver makes for its pointer (R120). -/
def pointerReads (m : MemOperand) (s : State) : List BusAccess :=
  match m with
  | .izx z => [.read (zext16 (z + s.x)), .read (zext16 (z + s.x + 1))]
  | .izy z => [.read (zext16 z), .read (zext16 (z + 1))]
  | .zp0 _ | .zpx _ | .zpy _ | .abs _ | .abx _ | .aby _ => []

/-- The resolver makes its pointer reads and changes nothing else (R105). -/
@[simp] theorem resolve_after (m : MemOperand) (s : State) :
    (resolve m s).after = { s with bus := s.bus ++ pointerReads m s } := by
  cases m <;> simp [resolve, indexed, zeroPageWord_eq, pointerReads]

theorem resolveJump_eq (op : JumpOperand) (s : State) :
    resolveJump op s =
      match op with
      | .abs a => { addr := a, cross := false, after := s }
      | .ind ptr =>
        { addr := cat (s.mem.read (cat (hiByte ptr) (loByte ptr + 1))) (s.mem.read ptr)
          cross := false
          after := { s with bus := s.bus ++ [.read ptr, .read (cat (hiByte ptr) (loByte ptr + 1))] } } := by
  cases op <;> simp [resolveJump, memRead]

/-- The accesses made for the operand's byte (R119, R120). -/
def operandReads (op : ReadOperand) (s : State) : List BusAccess :=
  match op with
  | .imm _ => []
  | .mem m => pointerReads m s ++ [.read (resolve m s).addr]

/-- Reading an operand makes its accesses and changes nothing else (R119). -/
@[simp] theorem operandValue_after (op : ReadOperand) (s : State) :
    (operandValue op s).after = { s with bus := s.bus ++ operandReads op s } := by
  cases op <;> simp [operandValue, operandReads, memRead]

theorem operandValue_value (op : ReadOperand) (s : State) :
    (operandValue op s).value =
      match op with
      | .imm b => b
      | .mem m => s.mem.read (resolve m s).addr := by
  cases op <;> simp [operandValue]

theorem finish_eq (n : Nat) (s : State) : finish n s = .next { s with remaining := n } := rfl

theorem readInstr_eq (op : ReadOperand) (sem : Byte → State → State) (s : State) :
    readInstr op sem s =
      .next (charge (readCycles op (operandValue op s).cross)
        (sem (operandValue op s).value { s with bus := s.bus ++ operandReads op s })) := by
  simp [readInstr, finish]

theorem storeInstr_eq (m : MemOperand) (v : Byte) (s : State) :
    storeInstr m v s =
      .next
        { s with
          mem := s.mem.write (resolve m s).addr v
          bus := s.bus ++ (pointerReads m s ++ [.write (resolve m s).addr v])
          remaining := storeCycles m } := by
  simp [storeInstr, finish, charge, memWrite]

theorem modifyInstr_eq (f : Byte → Byte) (m : MemOperand) (s : State) :
    modifyInstr f m s =
      .next
        { s with
          p := setZN (f (s.mem.read (resolve m s).addr)) s.p
          mem := s.mem.write (resolve m s).addr (f (s.mem.read (resolve m s).addr))
          bus := s.bus ++ (pointerReads m s ++
            [.read (resolve m s).addr, .write (resolve m s).addr (f (s.mem.read (resolve m s).addr))])
          remaining := rmwCycles m } := by
  simp [modifyInstr, finish, charge, memWrite, memRead]

theorem shiftInstr_acc_eq (f : Byte → Bool → ShiftResult) (s : State) :
    shiftInstr f .acc s =
      .next { s with a := (f s.a s.p.c).r, p := shiftFlags (f s.a s.p.c) s.p, remaining := 2 } := rfl

theorem shiftInstr_mem_eq (f : Byte → Bool → ShiftResult) (m : MemOperand) (s : State) :
    shiftInstr f (.mem m) s =
      .next
        { s with
          p := shiftFlags (f (s.mem.read (resolve m s).addr) s.p.c) s.p
          mem := s.mem.write (resolve m s).addr (f (s.mem.read (resolve m s).addr) s.p.c).r
          bus := s.bus ++ (pointerReads m s ++
            [.read (resolve m s).addr, .write (resolve m s).addr (f (s.mem.read (resolve m s).addr) s.p.c).r])
          remaining := rmwCycles m } := by
  simp [shiftInstr, finish, charge, memWrite, memRead]

theorem branch_taken_eq (d : Byte) (s : State) :
    branch true d s =
      .next
        { s with
          pc := s.pc + sext16 d
          remaining := if pagesDiffer (s.pc + sext16 d) s.pc then 4 else 3 } := rfl

theorem branch_untaken_eq (d : Byte) (s : State) : branch false d s = .next { s with remaining := 2 } := rfl

/-- What the decimal or binary arithmetic leaves unchanged. -/
theorem arith_frame (bin dec : Byte → Byte → Bool → AdderResult) (m : Byte) (s : State) :
    arith bin dec m s =
      { s with
        a := (arith bin dec m s).a
        p := { (arith bin dec m s).p with i := s.p.i, d := s.p.d }
        freeDraws := (arith bin dec m s).freeDraws } := by
  unfold arith
  split
  · split <;> rfl
  · rfl

theorem readCycles_bounds (op : ReadOperand) (cross : Bool) : 2 ≤ readCycles op cross ∧ readCycles op cross ≤ 7 := by
  rcases op with b | m
  · simp [readCycles, readBase, readPagePenalty]
  · cases m <;> cases cross <;> simp [readCycles, readBase, readPagePenalty]

theorem storeCycles_bounds (m : MemOperand) : 2 ≤ storeCycles m ∧ storeCycles m ≤ 7 := by
  cases m <;> simp [storeCycles]

theorem rmwCycles_bounds (m : MemOperand) : 2 ≤ rmwCycles m ∧ rmwCycles m ≤ 7 := by
  cases m <;> simp [rmwCycles]

end Sys2Proof.Machine
end

