-- ==== Sys2Proof/Laws/PerInstr.lean ====
section
/-! SUPPORT. Statements made per instruction, one lemma per constructor of `Instr`. The family `EncodingLength`: a
well-formed instruction is encoded in exactly its length (30_encoding.md R81, R84). -/

namespace Sys2Proof.Laws.EncodingLength

/-- The bytes of a well-formed instruction are as many as its mode says. -/
def Statement (i : Instr) : Prop := i.wellFormed = true → (encode i).length = i.length

theorem of_memOperand (m : MemOperand) : m.bytes.length = m.mode.operandBytes := by cases m <;> rfl

theorem of_readOperand (op : ReadOperand) : op.bytes.length = op.mode.operandBytes := by
  cases op with
  | imm b => rfl
  | mem m => exact of_memOperand m

theorem of_shiftOperand (op : ShiftOperand) : op.bytes.length = op.mode.operandBytes := by
  cases op with
  | acc => rfl
  | mem m => exact of_memOperand m

/-- The row of the opcode map has a byte, so the length is that of the operand bytes and one more. -/
theorem of_opcode {i : Instr} (h : i.wellFormed = true → i.opcode.isSome = true)
    (hb : i.operandBytes.length = i.mode.operandBytes) : Statement i := by
  intro hw
  obtain ⟨b, hb'⟩ := Option.isSome_iff_exists.1 (h hw)
  simp [encode, hb', Instr.length, hb, Nat.add_comm]

theorem aluRow_isSome (b₁ b₂ b₃ b₄ b₅ b₆ b₇ b₈ : Byte) (md : Mode) :
    (aluRow b₁ b₂ b₃ b₄ b₅ b₆ b₇ b₈ md).isSome = aluModes.contains md := by
  cases md <;> rfl

theorem shiftRow_isSome (b₁ b₂ b₃ b₄ b₅ : Byte) (md : Mode) :
    (shiftRow b₁ b₂ b₃ b₄ b₅ md).isSome = shiftModes.contains md := by
  cases md <;> rfl

theorem indexCompareRow_isSome (b₁ b₂ b₃ : Byte) (md : Mode) :
    (indexCompareRow b₁ b₂ b₃ md).isSome = indexCompareModes.contains md := by
  cases md <;> rfl

theorem ldxRow_isSome (b₁ b₂ b₃ b₄ b₅ : Byte) (md : Mode) :
    (ldxRow b₁ b₂ b₃ b₄ b₅ md).isSome = ldxModes.contains md := by
  cases md <;> rfl

theorem ldyRow_isSome (b₁ b₂ b₃ b₄ b₅ : Byte) (md : Mode) :
    (ldyRow b₁ b₂ b₃ b₄ b₅ md).isSome = ldyModes.contains md := by
  cases md <;> rfl

theorem staRow_isSome (b₁ b₂ b₃ b₄ b₅ b₆ b₇ : Byte) (md : Mode) :
    (staRow b₁ b₂ b₃ b₄ b₅ b₆ b₇ md).isSome = staModes.contains md := by
  cases md <;> rfl

theorem stxRow_isSome (b₁ b₂ b₃ : Byte) (md : Mode) :
    (stxRow b₁ b₂ b₃ md).isSome = stxModes.contains md := by
  cases md <;> rfl

theorem styRow_isSome (b₁ b₂ b₃ : Byte) (md : Mode) :
    (styRow b₁ b₂ b₃ md).isSome = styModes.contains md := by
  cases md <;> rfl

theorem incDecRow_isSome (b₁ b₂ b₃ b₄ : Byte) (md : Mode) :
    (incDecRow b₁ b₂ b₃ b₄ md).isSome = incDecModes.contains md := by
  cases md <;> rfl

theorem bitRow_isSome (b₁ b₂ : Byte) (md : Mode) :
    (bitRow b₁ b₂ md).isSome = bitModes.contains md := by
  cases md <;> rfl

theorem adc (op : ReadOperand) : Statement (.adc op) :=
  of_opcode (fun h => (aluRow_isSome _ _ _ _ _ _ _ _ _).trans h) (of_readOperand op)

theorem sbc (op : ReadOperand) : Statement (.sbc op) :=
  of_opcode (fun h => (aluRow_isSome _ _ _ _ _ _ _ _ _).trans h) (of_readOperand op)

theorem asl (op : ShiftOperand) : Statement (.asl op) :=
  of_opcode (fun h => (shiftRow_isSome _ _ _ _ _ _).trans h) (of_shiftOperand op)

theorem lsr (op : ShiftOperand) : Statement (.lsr op) :=
  of_opcode (fun h => (shiftRow_isSome _ _ _ _ _ _).trans h) (of_shiftOperand op)

theorem rol (op : ShiftOperand) : Statement (.rol op) :=
  of_opcode (fun h => (shiftRow_isSome _ _ _ _ _ _).trans h) (of_shiftOperand op)

theorem ror (op : ShiftOperand) : Statement (.ror op) :=
  of_opcode (fun h => (shiftRow_isSome _ _ _ _ _ _).trans h) (of_shiftOperand op)

theorem cmp (op : ReadOperand) : Statement (.cmp op) :=
  of_opcode (fun h => (aluRow_isSome _ _ _ _ _ _ _ _ _).trans h) (of_readOperand op)

theorem cpx (op : ReadOperand) : Statement (.cpx op) :=
  of_opcode (fun h => (indexCompareRow_isSome _ _ _ _).trans h) (of_readOperand op)

theorem cpy (op : ReadOperand) : Statement (.cpy op) :=
  of_opcode (fun h => (indexCompareRow_isSome _ _ _ _).trans h) (of_readOperand op)

theorem bcc (d : Byte) : Statement (.bcc d) :=
  of_opcode (fun _ => rfl) rfl

theorem bcs (d : Byte) : Statement (.bcs d) :=
  of_opcode (fun _ => rfl) rfl

theorem beq (d : Byte) : Statement (.beq d) :=
  of_opcode (fun _ => rfl) rfl

theorem bne (d : Byte) : Statement (.bne d) :=
  of_opcode (fun _ => rfl) rfl

theorem bmi (d : Byte) : Statement (.bmi d) :=
  of_opcode (fun _ => rfl) rfl

theorem bpl (d : Byte) : Statement (.bpl d) :=
  of_opcode (fun _ => rfl) rfl

theorem bvc (d : Byte) : Statement (.bvc d) :=
  of_opcode (fun _ => rfl) rfl

theorem bvs (d : Byte) : Statement (.bvs d) :=
  of_opcode (fun _ => rfl) rfl

theorem pha : Statement .pha :=
  of_opcode (fun _ => rfl) rfl

theorem php : Statement .php :=
  of_opcode (fun _ => rfl) rfl

theorem pla : Statement .pla :=
  of_opcode (fun _ => rfl) rfl

theorem plp : Statement .plp :=
  of_opcode (fun _ => rfl) rfl

theorem jsr (target : Addr) : Statement (.jsr target) :=
  of_opcode (fun _ => rfl) rfl

theorem rts : Statement .rts :=
  of_opcode (fun _ => rfl) rfl

theorem brk : Statement .brk :=
  of_opcode (fun _ => rfl) rfl

theorem rti : Statement .rti :=
  of_opcode (fun _ => rfl) rfl

theorem clc : Statement .clc :=
  of_opcode (fun _ => rfl) rfl

theorem sec : Statement .sec :=
  of_opcode (fun _ => rfl) rfl

theorem cli : Statement .cli :=
  of_opcode (fun _ => rfl) rfl

theorem sei : Statement .sei :=
  of_opcode (fun _ => rfl) rfl

theorem cld : Statement .cld :=
  of_opcode (fun _ => rfl) rfl

theorem sed : Statement .sed :=
  of_opcode (fun _ => rfl) rfl

theorem clv : Statement .clv :=
  of_opcode (fun _ => rfl) rfl

theorem lda (op : ReadOperand) : Statement (.lda op) :=
  of_opcode (fun h => (aluRow_isSome _ _ _ _ _ _ _ _ _).trans h) (of_readOperand op)

theorem ldx (op : ReadOperand) : Statement (.ldx op) :=
  of_opcode (fun h => (ldxRow_isSome _ _ _ _ _ _).trans h) (of_readOperand op)

theorem ldy (op : ReadOperand) : Statement (.ldy op) :=
  of_opcode (fun h => (ldyRow_isSome _ _ _ _ _ _).trans h) (of_readOperand op)

theorem sta (m : MemOperand) : Statement (.sta m) :=
  of_opcode (fun h => (staRow_isSome _ _ _ _ _ _ _ _).trans h) (of_memOperand m)

theorem stx (m : MemOperand) : Statement (.stx m) :=
  of_opcode (fun h => (stxRow_isSome _ _ _ _).trans h) (of_memOperand m)

theorem sty (m : MemOperand) : Statement (.sty m) :=
  of_opcode (fun h => (styRow_isSome _ _ _ _).trans h) (of_memOperand m)

theorem tax : Statement .tax :=
  of_opcode (fun _ => rfl) rfl

theorem txa : Statement .txa :=
  of_opcode (fun _ => rfl) rfl

theorem tay : Statement .tay :=
  of_opcode (fun _ => rfl) rfl

theorem tya : Statement .tya :=
  of_opcode (fun _ => rfl) rfl

theorem tsx : Statement .tsx :=
  of_opcode (fun _ => rfl) rfl

theorem txs : Statement .txs :=
  of_opcode (fun _ => rfl) rfl

theorem inx : Statement .inx :=
  of_opcode (fun _ => rfl) rfl

theorem iny : Statement .iny :=
  of_opcode (fun _ => rfl) rfl

theorem dex : Statement .dex :=
  of_opcode (fun _ => rfl) rfl

theorem dey : Statement .dey :=
  of_opcode (fun _ => rfl) rfl

theorem inc (m : MemOperand) : Statement (.inc m) :=
  of_opcode (fun h => (incDecRow_isSome _ _ _ _ _).trans h) (of_memOperand m)

theorem dec (m : MemOperand) : Statement (.dec m) :=
  of_opcode (fun h => (incDecRow_isSome _ _ _ _ _).trans h) (of_memOperand m)

theorem and (op : ReadOperand) : Statement (.and op) :=
  of_opcode (fun h => (aluRow_isSome _ _ _ _ _ _ _ _ _).trans h) (of_readOperand op)

theorem ora (op : ReadOperand) : Statement (.ora op) :=
  of_opcode (fun h => (aluRow_isSome _ _ _ _ _ _ _ _ _).trans h) (of_readOperand op)

theorem eor (op : ReadOperand) : Statement (.eor op) :=
  of_opcode (fun h => (aluRow_isSome _ _ _ _ _ _ _ _ _).trans h) (of_readOperand op)

theorem bit (m : MemOperand) : Statement (.bit m) :=
  of_opcode (fun h => (bitRow_isSome _ _ _).trans h) (of_memOperand m)

theorem nop : Statement .nop :=
  of_opcode (fun _ => rfl) rfl

theorem jmp (op : JumpOperand) : Statement (.jmp op) :=
  of_opcode (fun _ => by cases op <;> rfl) (by cases op <;> rfl)

theorem nopUnofficial (opcode : Byte) : Statement (.nopUnofficial opcode) :=
  of_opcode (fun h => by simp only [Instr.opcode, if_pos (show unofficialOpcodes.contains opcode = true from h)]; rfl) rfl

end Sys2Proof.Laws.EncodingLength
end

