-- ==== Sys2Proof/Laws/Tick.lean ====
section
/-! SUPPORT. The fetch always yields bytes that decode, and what a tick can do, said once. -/

namespace Sys2Proof.Laws

open Sys2Proof.Machine

theorem fetchBytes_zero (s : State) : fetchBytes 0 s = ([], s) := rfl

theorem fetchBytes_one (s : State) :
    fetchBytes 1 s = ([s.mem.read s.pc], { s with pc := s.pc + 1, bus := s.bus ++ [.read s.pc] }) := rfl

theorem fetchBytes_two (s : State) :
    fetchBytes 2 s =
      ([s.mem.read s.pc, s.mem.read (s.pc + 1)],
        { s with pc := s.pc + 1 + 1, bus := s.bus ++ [.read s.pc, .read (s.pc + 1)] }) := by
  simp [fetchBytes, fetch8, memRead]

theorem fetchBytes_state (n : Nat) (s : State) :
    (fetchBytes n s).2 = { s with pc := (fetchBytes n s).2.pc, bus := (fetchBytes n s).2.bus } := by
  induction n generalizing s with
  | zero => rfl
  | succ n ih => exact ih (fetch8 s).2

/-- Fetching changes `PC` and the bus record only (R103). -/
theorem fetchInstr_state (s : State) :
    (fetchInstr s).2 = { s with pc := (fetchInstr s).2.pc, bus := (fetchInstr s).2.bus } :=
  fetchBytes_state _ (fetch8 s).2

/-- The bytes fetched are those of one whole instruction, so decoding them never fails (R84, R102). -/
theorem decode_fetchInstr (s : State) : ∃ i, decode (fetchInstr s).1 = .ok (i, []) := by
  have hv : (fetch8 s).1 = s.mem.read s.pc := rfl
  unfold fetchInstr
  simp only [hv]
  cases he : entryOf (s.mem.read s.pc) <;>
    simp [Entry.operandBytes, fetchBytes_zero, fetchBytes_one, fetchBytes_two, decode, he]

/-- One instruction is the meaning of the instruction that the fetched bytes decode to (R101). -/
theorem executeOne_eq {s : State} {i : Instr} {rest : List Byte} (h : decode (fetchInstr s).1 = .ok (i, rest)) :
    executeOne s = exec i (fetchInstr s).2 := by
  simp only [executeOne, h]

/-- The four things a tick can do before its count-down (R100). -/
theorem dispatch_cases (s : State) :
    (s.resetPending = true ∧ dispatch s = .next (resetSequence { s with bus := [] })) ∨
    (s.resetPending = false ∧ s.remaining = 0 ∧ dispatch s = atBoundary { s with bus := [] }) ∨
    (s.resetPending = false ∧ s.remaining ≠ 0 ∧ dispatch s = .next { s with bus := [] }) := by
  unfold dispatch
  cases s.resetPending
  · by_cases h0 : s.remaining = 0 <;> simp [h0]
  · simp

/-- The three things that can happen at a boundary (R100, R310). -/
theorem atBoundary_cases (s : State) :
    (s.nmiPending = true ∧ atBoundary s = .next (nmiSequence s)) ∨
    (s.nmiPending = false ∧ s.irqLine = true ∧ s.p.i = false ∧ atBoundary s = .next (irqSequence s)) ∨
    (s.nmiPending = false ∧ (s.irqLine = true → s.p.i = true) ∧
      atBoundary s = executeOne { s with ctl := .running }) := by
  unfold atBoundary
  cases s.nmiPending <;> cases s.irqLine <;> cases s.p.i <;> simp

/-- A step is the dispatch and then the count-down (R100). -/
theorem step_eq (s : State) : step s = mapNext endTick (dispatch s) := rfl

/-- The end of a tick, by cases on whether the budget ends (R100). -/
theorem endTick_eq (s : State) :
    endTick s =
      { s with
        total := s.total + 1
        remaining := s.remaining - 1
        ctl := if s.remaining - 1 = 0 then .running else s.ctl } := by
  unfold endTick
  by_cases h : s.remaining - 1 = 0 <;> simp [h]

/-- A taken or untaken branch answers a next state that differs in `PC` and its own count only. -/
theorem branch_next (cond : Bool) (d : Byte) (s : State) :
    ∃ t, branch cond d s = .next t ∧ 2 ≤ t.remaining ∧ t.remaining ≤ 4 ∧
      t = { s with pc := t.pc, remaining := t.remaining } := by
  cases cond
  · exact ⟨_, branch_untaken_eq d s, by simp, by simp, rfl⟩
  · refine ⟨_, branch_taken_eq d s, ?_, ?_, rfl⟩ <;> dsimp only <;> split <;> omega

/-- A next state that leaves the controller, the latches, the IRQ level and the tick count alone, and has a count of 2 to 7
in its budget (R33, R86). -/
def Completes (o : Host.Outcome State Fault Refusal) (s : State) : Prop :=
  ∃ t, o = .next t ∧ 2 ≤ t.remaining ∧ t.remaining ≤ 7 ∧ t.total = s.total ∧ t.ctl = s.ctl ∧
    t.resetPending = s.resetPending ∧ t.nmiPending = s.nmiPending ∧ t.irqLine = s.irqLine

theorem finish_completes {n : Nat} {s t : State} (h : 2 ≤ n ∧ n ≤ 7) (ht : t.total = s.total) (hc : t.ctl = s.ctl)
    (hr : t.resetPending = s.resetPending) (hn : t.nmiPending = s.nmiPending) (hi : t.irqLine = s.irqLine) :
    Completes (finish n t) s :=
  ⟨charge n t, rfl, h.1, h.2, ht, hc, hr, hn, hi⟩

theorem readInstr_completes (op : ReadOperand) (sem : Byte → State → State) (s : State)
    (h : ∀ m u, (sem m u).total = u.total ∧ (sem m u).ctl = u.ctl ∧ (sem m u).resetPending = u.resetPending ∧
      (sem m u).nmiPending = u.nmiPending ∧ (sem m u).irqLine = u.irqLine) : Completes (readInstr op sem s) s := by
  rw [readInstr_eq]
  obtain ⟨h1, h2, h3, h4, h5⟩ := h (operandValue op s).value { s with bus := s.bus ++ operandReads op s }
  exact ⟨_, rfl, (readCycles_bounds op _).1, (readCycles_bounds op _).2, h1, h2, h3, h4, h5⟩

theorem storeInstr_completes (m : MemOperand) (v : Byte) (s : State) : Completes (storeInstr m v s) s := by
  rw [storeInstr_eq]
  exact ⟨_, rfl, (storeCycles_bounds m).1, (storeCycles_bounds m).2, rfl, rfl, rfl, rfl, rfl⟩

theorem modifyInstr_completes (f : Byte → Byte) (m : MemOperand) (s : State) : Completes (modifyInstr f m s) s := by
  rw [modifyInstr_eq]
  exact ⟨_, rfl, (rmwCycles_bounds m).1, (rmwCycles_bounds m).2, rfl, rfl, rfl, rfl, rfl⟩

theorem shiftInstr_completes (f : Byte → Bool → ShiftResult) (op : ShiftOperand) (s : State) :
    Completes (shiftInstr f op s) s := by
  cases op with
  | acc => exact finish_completes (by decide) rfl rfl rfl rfl rfl
  | mem m =>
    rw [shiftInstr_mem_eq]
    exact ⟨_, rfl, (rmwCycles_bounds m).1, (rmwCycles_bounds m).2, rfl, rfl, rfl, rfl, rfl⟩

theorem branch_completes (cond : Bool) (d : Byte) (s : State) : Completes (branch cond d s) s := by
  obtain ⟨t, ht, h2, h4, he⟩ := branch_next cond d s
  exact ⟨t, ht, h2, by omega, by rw [he], by rw [he], by rw [he], by rw [he], by rw [he]⟩

theorem arith_keeps (bin dec : Byte → Byte → Bool → AdderResult) (m : Byte) (u : State) :
    (arith bin dec m u).total = u.total ∧ (arith bin dec m u).ctl = u.ctl ∧
      (arith bin dec m u).resetPending = u.resetPending ∧ (arith bin dec m u).nmiPending = u.nmiPending ∧
      (arith bin dec m u).irqLine = u.irqLine := by
  rw [arith_frame]
  exact ⟨rfl, rfl, rfl, rfl, rfl⟩

/-- Every instruction answers a next state, with a count of 2 to 7, and touches neither the controller nor the host's inputs
(R32, R101, R309). -/
theorem exec_completes (i : Instr) (s : State) : Completes (exec i s) s := by
  cases i with
  | adc op => unfold exec execAdc; exact readInstr_completes op _ s (arith_keeps _ _)
  | sbc op => unfold exec execSbc; exact readInstr_completes op _ s (arith_keeps _ _)
  | asl op => unfold exec execAsl; exact shiftInstr_completes _ op s
  | lsr op => unfold exec execLsr; exact shiftInstr_completes _ op s
  | rol op => unfold exec execRol; exact shiftInstr_completes _ op s
  | ror op => unfold exec execRor; exact shiftInstr_completes _ op s
  | cmp op => unfold exec execCmp; exact readInstr_completes op _ s fun _ _ => ⟨rfl, rfl, rfl, rfl, rfl⟩
  | cpx op => unfold exec execCpx; exact readInstr_completes op _ s fun _ _ => ⟨rfl, rfl, rfl, rfl, rfl⟩
  | cpy op => unfold exec execCpy; exact readInstr_completes op _ s fun _ _ => ⟨rfl, rfl, rfl, rfl, rfl⟩
  | lda op => unfold exec execLda; exact readInstr_completes op _ s fun _ _ => ⟨rfl, rfl, rfl, rfl, rfl⟩
  | ldx op => unfold exec execLdx; exact readInstr_completes op _ s fun _ _ => ⟨rfl, rfl, rfl, rfl, rfl⟩
  | ldy op => unfold exec execLdy; exact readInstr_completes op _ s fun _ _ => ⟨rfl, rfl, rfl, rfl, rfl⟩
  | and op => unfold exec execAnd; exact readInstr_completes op _ s fun _ _ => ⟨rfl, rfl, rfl, rfl, rfl⟩
  | ora op => unfold exec execOra; exact readInstr_completes op _ s fun _ _ => ⟨rfl, rfl, rfl, rfl, rfl⟩
  | eor op => unfold exec execEor; exact readInstr_completes op _ s fun _ _ => ⟨rfl, rfl, rfl, rfl, rfl⟩
  | bit m => unfold exec execBit; exact readInstr_completes (.mem m) _ s fun _ _ => ⟨rfl, rfl, rfl, rfl, rfl⟩
  | sta m => unfold exec execSta; exact storeInstr_completes m _ s
  | stx m => unfold exec execStx; exact storeInstr_completes m _ s
  | sty m => unfold exec execSty; exact storeInstr_completes m _ s
  | inc m => unfold exec execInc; exact modifyInstr_completes _ m s
  | dec m => unfold exec execDec; exact modifyInstr_completes _ m s
  | bcc d => unfold exec execBcc; exact branch_completes _ d s
  | bcs d => unfold exec execBcs; exact branch_completes _ d s
  | beq d => unfold exec execBeq; exact branch_completes _ d s
  | bne d => unfold exec execBne; exact branch_completes _ d s
  | bmi d => unfold exec execBmi; exact branch_completes _ d s
  | bpl d => unfold exec execBpl; exact branch_completes _ d s
  | bvc d => unfold exec execBvc; exact branch_completes _ d s
  | bvs d => unfold exec execBvs; exact branch_completes _ d s
  | jmp op =>
    unfold exec execJmp
    cases op <;> exact finish_completes ⟨by simp, by simp⟩ rfl rfl rfl rfl rfl
  | pha => unfold exec execPha; exact finish_completes ⟨by simp, by simp⟩ rfl rfl rfl rfl rfl
  | php => unfold exec execPhp; exact finish_completes ⟨by simp, by simp⟩ rfl rfl rfl rfl rfl
  | pla => unfold exec execPla; exact finish_completes ⟨by simp, by simp⟩ rfl rfl rfl rfl rfl
  | plp => unfold exec execPlp; exact finish_completes ⟨by simp, by simp⟩ rfl rfl rfl rfl rfl
  | clc => unfold exec execClc; exact finish_completes ⟨by simp, by simp⟩ rfl rfl rfl rfl rfl
  | sec => unfold exec execSec; exact finish_completes ⟨by simp, by simp⟩ rfl rfl rfl rfl rfl
  | cli => unfold exec execCli; exact finish_completes ⟨by simp, by simp⟩ rfl rfl rfl rfl rfl
  | sei => unfold exec execSei; exact finish_completes ⟨by simp, by simp⟩ rfl rfl rfl rfl rfl
  | cld => unfold exec execCld; exact finish_completes ⟨by simp, by simp⟩ rfl rfl rfl rfl rfl
  | sed => unfold exec execSed; exact finish_completes ⟨by simp, by simp⟩ rfl rfl rfl rfl rfl
  | clv => unfold exec execClv; exact finish_completes ⟨by simp, by simp⟩ rfl rfl rfl rfl rfl
  | tax => unfold exec execTax; exact finish_completes ⟨by simp, by simp⟩ rfl rfl rfl rfl rfl
  | txa => unfold exec execTxa; exact finish_completes ⟨by simp, by simp⟩ rfl rfl rfl rfl rfl
  | tay => unfold exec execTay; exact finish_completes ⟨by simp, by simp⟩ rfl rfl rfl rfl rfl
  | tya => unfold exec execTya; exact finish_completes ⟨by simp, by simp⟩ rfl rfl rfl rfl rfl
  | tsx => unfold exec execTsx; exact finish_completes ⟨by simp, by simp⟩ rfl rfl rfl rfl rfl
  | txs => unfold exec execTxs; exact finish_completes ⟨by simp, by simp⟩ rfl rfl rfl rfl rfl
  | inx => unfold exec execInx; exact finish_completes ⟨by simp, by simp⟩ rfl rfl rfl rfl rfl
  | iny => unfold exec execIny; exact finish_completes ⟨by simp, by simp⟩ rfl rfl rfl rfl rfl
  | dex => unfold exec execDex; exact finish_completes ⟨by simp, by simp⟩ rfl rfl rfl rfl rfl
  | dey => unfold exec execDey; exact finish_completes ⟨by simp, by simp⟩ rfl rfl rfl rfl rfl
  | nop => unfold exec execNop; exact finish_completes ⟨by simp, by simp⟩ rfl rfl rfl rfl rfl
  | nopUnofficial b => unfold exec execNopUnofficial; exact finish_completes (by decide) rfl rfl rfl rfl rfl
  | jsr a => unfold exec execJsr; rw [push16_eq]; exact finish_completes ⟨by simp, by simp⟩ rfl rfl rfl rfl rfl
  | rts => unfold exec execRts; rw [pull16_eq]; exact finish_completes ⟨by simp, by simp⟩ rfl rfl rfl rfl rfl
  | brk => unfold exec execBrk; rw [enterInterrupt_eq _ _ _ (by decide) (by decide)]; exact finish_completes ⟨by simp, by simp⟩ rfl rfl rfl rfl rfl
  | rti => unfold exec execRti; rw [returnFromInterrupt_eq]; exact finish_completes ⟨by simp, by simp⟩ rfl rfl rfl rfl rfl

end Sys2Proof.Laws
end

