-- ==== Sys2Proof/Tests/Slice0.lean ====
section
/-! SUPPORT. Tests: each expected result is from the spec, most of them a vector of 95_test_vectors.md, named in the
docstring; and the witnesses, one for every statement that has hypotheses. -/

namespace Sys2Proof.Tests

open Sys2Proof.Machine

/-! ### WellFormed: for each check an ill-formed term -/

theorem test_wf_alu_has_no_zpy : (Instr.adc (.mem (.zpy 0#8))).wellFormed = false := by decide

theorem test_wf_shift_has_no_aby : (Instr.asl (.mem (.aby 0#16))).wellFormed = false := by decide

theorem test_wf_cpx_has_no_zpx : (Instr.cpx (.mem (.zpx 0#8))).wellFormed = false := by decide

theorem test_wf_ldx_has_no_zpx : (Instr.ldx (.mem (.zpx 0#8))).wellFormed = false := by decide

theorem test_wf_ldy_has_no_zpy : (Instr.ldy (.mem (.zpy 0#8))).wellFormed = false := by decide

theorem test_wf_sta_has_no_zpy : (Instr.sta (.zpy 0#8)).wellFormed = false := by decide

theorem test_wf_stx_has_no_zpx : (Instr.stx (.zpx 0#8)).wellFormed = false := by decide

theorem test_wf_sty_has_no_zpy : (Instr.sty (.zpy 0#8)).wellFormed = false := by decide

theorem test_wf_inc_has_no_aby : (Instr.inc (.aby 0#16)).wellFormed = false := by decide

theorem test_wf_bit_has_no_zpx : (Instr.bit (.zpx 0#8)).wellFormed = false := by decide

theorem test_wf_nop_is_official : (Instr.nopUnofficial 0xEA#8).wellFormed = false := by decide

/-- A term that is no instruction has no bytes. -/
theorem test_wf_no_bytes : encode (.bit (.zpx 0#8)) = [] := by decide

/-! ### Decode: for every constructor a word written out from the map of R86 and the layouts of R82 -/

theorem test_decode_arithmetic :
    decode [0x69#8, 0x03#8] = .ok (.adc (.imm 0x03#8), []) ∧
    decode [0xFD#8, 0x34#8, 0x12#8] = .ok (.sbc (.mem (.abx 0x1234#16)), []) := by decide

theorem test_decode_shift :
    decode [0x0A#8] = .ok (.asl .acc, []) ∧
    decode [0x46#8, 0x10#8] = .ok (.lsr (.mem (.zp0 0x10#8)), []) ∧
    decode [0x36#8, 0x10#8] = .ok (.rol (.mem (.zpx 0x10#8)), []) ∧
    decode [0x7E#8, 0x00#8, 0x02#8] = .ok (.ror (.mem (.abx 0x0200#16)), []) := by decide

theorem test_decode_compare :
    decode [0xC1#8, 0x20#8] = .ok (.cmp (.mem (.izx 0x20#8)), []) ∧
    decode [0xE4#8, 0x10#8] = .ok (.cpx (.mem (.zp0 0x10#8)), []) ∧
    decode [0xCC#8, 0x00#8, 0x02#8] = .ok (.cpy (.mem (.abs 0x0200#16)), []) := by decide

theorem test_decode_branch :
    decode [0x90#8, 0x02#8] = .ok (.bcc 0x02#8, []) ∧ decode [0xB0#8, 0xFC#8] = .ok (.bcs 0xFC#8, []) ∧
    decode [0xF0#8, 0x10#8] = .ok (.beq 0x10#8, []) ∧ decode [0xD0#8, 0xFB#8] = .ok (.bne 0xFB#8, []) ∧
    decode [0x30#8, 0x7F#8] = .ok (.bmi 0x7F#8, []) ∧ decode [0x10#8, 0x80#8] = .ok (.bpl 0x80#8, []) ∧
    decode [0x50#8, 0x01#8] = .ok (.bvc 0x01#8, []) ∧ decode [0x70#8, 0x01#8] = .ok (.bvs 0x01#8, []) := by decide

theorem test_decode_stack :
    decode [0x48#8] = .ok (.pha, []) ∧ decode [0x08#8] = .ok (.php, []) ∧ decode [0x68#8] = .ok (.pla, []) ∧
    decode [0x28#8] = .ok (.plp, []) ∧ decode [0x20#8, 0x10#8, 0x80#8] = .ok (.jsr 0x8010#16, []) ∧
    decode [0x60#8] = .ok (.rts, []) ∧ decode [0x00#8, 0xEA#8] = .ok (.brk, [0xEA#8]) ∧
    decode [0x40#8] = .ok (.rti, []) := by decide

theorem test_decode_flag :
    decode [0x18#8] = .ok (.clc, []) ∧ decode [0x38#8] = .ok (.sec, []) ∧ decode [0x58#8] = .ok (.cli, []) ∧
    decode [0x78#8] = .ok (.sei, []) ∧ decode [0xD8#8] = .ok (.cld, []) ∧ decode [0xF8#8] = .ok (.sed, []) ∧
    decode [0xB8#8] = .ok (.clv, []) := by decide

theorem test_decode_load_store :
    decode [0xB1#8, 0x10#8] = .ok (.lda (.mem (.izy 0x10#8)), []) ∧
    decode [0xB6#8, 0xF0#8] = .ok (.ldx (.mem (.zpy 0xF0#8)), []) ∧
    decode [0xBC#8, 0xFF#8, 0x12#8] = .ok (.ldy (.mem (.abx 0x12FF#16)), []) ∧
    decode [0x99#8, 0x00#8, 0x12#8] = .ok (.sta (.aby 0x1200#16), []) ∧
    decode [0x96#8, 0xFF#8] = .ok (.stx (.zpy 0xFF#8), []) ∧
    decode [0x94#8, 0x10#8] = .ok (.sty (.zpx 0x10#8), []) := by decide

theorem test_decode_transfer :
    decode [0xAA#8] = .ok (.tax, []) ∧ decode [0x8A#8] = .ok (.txa, []) ∧ decode [0xA8#8] = .ok (.tay, []) ∧
    decode [0x98#8] = .ok (.tya, []) ∧ decode [0xBA#8] = .ok (.tsx, []) ∧ decode [0x9A#8] = .ok (.txs, []) := by decide

theorem test_decode_increment :
    decode [0xE8#8] = .ok (.inx, []) ∧ decode [0xC8#8] = .ok (.iny, []) ∧ decode [0xCA#8] = .ok (.dex, []) ∧
    decode [0x88#8] = .ok (.dey, []) ∧ decode [0xFE#8, 0x00#8, 0x02#8] = .ok (.inc (.abx 0x0200#16), []) ∧
    decode [0xCE#8, 0x00#8, 0x02#8] = .ok (.dec (.abs 0x0200#16), []) := by decide

theorem test_decode_logic :
    decode [0x25#8, 0x10#8] = .ok (.and (.mem (.zp0 0x10#8)), []) ∧ decode [0x09#8, 0x80#8] = .ok (.ora (.imm 0x80#8), []) ∧
    decode [0x59#8, 0x00#8, 0x02#8] = .ok (.eor (.mem (.aby 0x0200#16)), []) ∧
    decode [0x2C#8, 0x00#8, 0x02#8] = .ok (.bit (.abs 0x0200#16), []) ∧ decode [0xEA#8] = .ok (.nop, []) ∧
    decode [0x4C#8, 0x0B#8, 0x80#8] = .ok (.jmp (.abs 0x800B#16), []) ∧
    decode [0x6C#8, 0xFF#8, 0x02#8] = .ok (.jmp (.ind 0x02FF#16), []) ∧
    decode [0x80#8, 0xFF#8] = .ok (.nopUnofficial 0x80#8, [0xFF#8]) := by decide

/-- Bytes that end too early hold no instruction, and the decoder says which opcode byte they were. -/
theorem test_decode_missing :
    decode [] = .error .noOpcode ∧ decode [0xA9#8] = .error (.missingOperand 0xA9#8) ∧
    decode [0xAD#8, 0x00#8] = .error (.missingOperand 0xAD#8) := by decide

/-- The table's rows give the opcode byte alone: the operand bytes are then 0. -/
theorem test_decodeTableWord :
    decodeTableWord 8 0xBD = some (.lda (.mem (.abx 0#16))) ∧ decodeTableWord 24 0x1234BD = some (.lda (.mem (.abx 0x1234#16))) ∧
    decodeTableWord 8 0x1234BD = some (.lda (.mem (.abx 0#16))) := by decide

/-! ### One step -/

/-- The default start of the vectors: `S = FF`, `PC = 8000`, everything else 0, the instruction's bytes at `PC`. -/
def start (bytes : List Byte) : State :=
  hostWrite 0x8000#16 bytes { State.powerOn with sp := 0xFF#8, pc := 0x8000#16 }

/-- What a function reads off the state after one instruction or sequence; `total` is then its cycle count. -/
def after {α : Type} (s : State) (f : State → α) : Option α :=
  match boundaryStep s with
  | .next t => some (f t)
  | _ => none

/-- The same after one tick. -/
def afterTick {α : Type} (s : State) (f : State → α) : Option α :=
  match step s with
  | .next t => some (f t)
  | _ => none

/-- All six flags 1: `P` reads `EF`. -/
def allFlags : Status := loadP 0xFF#8

/-! #### Addressing -/

/-- M3: a zero-page index wraps within page 0. -/
theorem test_M3 :
    after (hostWrite 0x0101#16 [0x55#8] (hostWrite 0x0001#16 [0xAA#8] { start [0xB5#8, 0xFF#8] with x := 0x02#8 }))
      (fun t => (t.a, t.p.toByte, t.pc, t.total)) = some (0xAA#8, 0xA0#8, 0x8002#16, 4#64) := by decide

/-- M8: an indexed address wraps at the top of the address space, and that is a page cross. -/
theorem test_M8 :
    after (hostWrite 0x0000#16 [0x33#8] { start [0xBD#8, 0xFF#8, 0xFF#8] with x := 0x01#8 })
      (fun t => (t.a, t.pc, t.total, t.bus)) =
        some (0x33#8, 0x8003#16, 5#64, [.read 0x8000#16, .read 0x8001#16, .read 0x8002#16, .read 0x0000#16]) := by decide

/-- M15: the high byte of a pointer at 00FF comes from 0000. -/
theorem test_M15 :
    after (hostWrite 0x00FF#16 [0x00#8, 0x04#8] (hostWrite 0x0000#16 [0x03#8] (hostWrite 0x0300#16 [0x5A#8]
      { start [0xA1#8, 0xF0#8] with x := 0x0F#8 }))) (fun t => (t.a, t.total, t.bus)) =
        some (0x5A#8, 6#64,
          [.read 0x8000#16, .read 0x8001#16, .read 0x00FF#16, .read 0x0000#16, .read 0x0300#16]) := by decide

/-- M18: an IZY read that crosses a page costs 6. -/
theorem test_M18 :
    after (hostWrite 0x0010#16 [0xF0#8, 0x12#8] (hostWrite 0x1300#16 [0x77#8]
      { start [0xB1#8, 0x10#8] with y := 0x10#8 })) (fun t => (t.a, t.total)) = some (0x77#8, 6#64) := by decide

/-- M23: an instruction straddles the top of the address space. -/
theorem test_M23 :
    after (hostWrite 0xFFFE#16 [0xAD#8, 0x34#8, 0x12#8] (hostWrite 0x1234#16 [0x01#8]
      { start [] with pc := 0xFFFE#16 })) (fun t => (t.a, t.pc)) = some (0x01#8, 0x0001#16) := by decide

/-! #### Arithmetic -/

/-- A2, A3, A5, A12: the result, carry and overflow, and P through the instruction. -/
theorem test_adc_binary :
    after { start [0x69#8, 0x50#8] with a := 0x50#8 } (fun t => (t.a, t.p.toByte, t.total)) = some (0xA0#8, 0xE0#8, 2#64) ∧
    addBinary 0xFF#8 0x00#8 true = { r := 0x00#8, carry := true, v := false } ∧
    addBinary 0x80#8 0x80#8 false = { r := 0x00#8, carry := true, v := true } ∧
    addBinary 0x80#8 0xFF#8 false = { r := 0x7F#8, carry := true, v := true } := by decide

/-- A15, A14, A17, A16. -/
theorem test_sbc_binary :
    after { start [0xE9#8, 0x01#8] with a := 0x80#8, p := loadP 0x01#8 } (fun t => (t.a, t.p.toByte)) = some (0x7F#8, 0x61#8) ∧
    subBinary 0x00#8 0x00#8 false = { r := 0xFF#8, carry := false, v := false } ∧
    subBinary 0x50#8 0xB0#8 true = { r := 0xA0#8, carry := false, v := true } ∧
    subBinary 0x50#8 0xF0#8 true = { r := 0x60#8, carry := false, v := false } := by decide

/-- A25, A30, A31. -/
theorem test_adc_decimal :
    after { start [0x69#8, 0x46#8] with a := 0x58#8, p := loadP 0x09#8 } (fun t => (t.a, t.p.toByte)) = some (0x05#8, 0x29#8) ∧
    addDecimal 0x79#8 0x00#8 true = { r := 0x80#8, carry := false, v := true } ∧
    addDecimal 0x99#8 0x99#8 true = { r := 0x99#8, carry := true, v := false } := by decide

/-- A32, A33, A36, A37. -/
theorem test_sbc_decimal :
    after { start [0xE9#8, 0x21#8] with a := 0x12#8, p := loadP 0x09#8 } (fun t => (t.a, t.p.toByte)) = some (0x91#8, 0xA8#8) ∧
    subDecimal 0x46#8 0x12#8 true = { r := 0x34#8, carry := true, v := false } ∧
    subDecimal 0x00#8 0x00#8 false = { r := 0x99#8, carry := false, v := false } ∧
    subDecimal 0x50#8 0x50#8 true = { r := 0x00#8, carry := true, v := false } := by decide

/-- A38: the instruction runs, `PC` advances by 2 and it costs 2 cycles; A and the flags are a draw. -/
theorem test_adc_invalid_bcd :
    after { start [0x69#8, 0x01#8] with a := 0x0A#8, p := loadP 0x08#8 } (fun t => (t.pc, t.total, t.freeDraws, t.p.d)) =
      some (0x8002#16, 2#64, 1, true) := by decide

/-! #### Shifts, compares, logic -/

/-- H3 and M12: the old C is not shifted in, and the ABX form costs 7 and makes one read and one write. -/
theorem test_asl :
    after { start [0x0A#8] with a := 0x40#8, p := loadP 0x01#8 } (fun t => (t.a, t.p.toByte)) = some (0x80#8, 0xA0#8) ∧
    after (hostWrite 0x1300#16 [0x81#8] { start [0x1E#8, 0xFF#8, 0x12#8] with x := 0x01#8 })
      (fun t => (t.p.toByte, t.total, t.bus)) =
        some (0x21#8, 7#64, [.read 0x8000#16, .read 0x8001#16, .read 0x8002#16, .read 0x1300#16, .write 0x1300#16 0x02#8]) := by
  decide

/-- H6: N is always cleared by LSR. -/
theorem test_lsr :
    after { start [0x4A#8] with a := 0xFF#8, p := loadP 0x80#8 } (fun t => (t.a, t.p.toByte)) = some (0x7F#8, 0x21#8) := by decide

/-- H12. -/
theorem test_rol :
    after (hostWrite 0x0011#16 [0x7F#8] { start [0x36#8, 0x10#8] with x := 0x01#8, p := loadP 0x01#8 })
      (fun t => (t.mem.read 0x0011#16, t.p.toByte, t.total)) = some (0xFF#8, 0xA0#8, 6#64) := by decide

/-- H16. -/
theorem test_ror :
    after (hostWrite 0x02FF#16 [0x01#8] { start [0x7E#8, 0x00#8, 0x02#8] with x := 0xFF#8, p := loadP 0x01#8 })
      (fun t => (t.mem.read 0x02FF#16, t.p.toByte, t.total)) = some (0x80#8, 0xA1#8, 7#64) := by decide

/-- Q5 and Q6: N is bit 7 of the difference; C in, V and D play no part. -/
theorem test_cmp :
    after { start [0xC9#8, 0x01#8] with a := 0x80#8 } (fun t => (t.a, t.p.toByte)) = some (0x80#8, 0x21#8) ∧
    after { start [0xC9#8, 0x40#8] with a := 0x40#8, p := loadP 0x48#8 } (fun t => t.p.toByte) = some 0x6B#8 := by decide

/-- Q9 and Q11. -/
theorem test_cpx_cpy :
    after (hostWrite 0x0010#16 [0x02#8] { start [0xE4#8, 0x10#8] with x := 0x01#8 }) (fun t => (t.p.toByte, t.total)) =
      some (0xA0#8, 3#64) ∧
    after (start [0xCC#8, 0x00#8, 0x02#8]) (fun t => (t.p.toByte, t.total)) = some (0x23#8, 4#64) := by decide

/-- G1, G3, G6. -/
theorem test_and_ora_eor :
    after { start [0x29#8, 0x0F#8] with a := 0xF0#8 } (fun t => (t.a, t.p.toByte)) = some (0x00#8, 0x22#8) ∧
    after { start [0x09#8, 0x80#8] with a := 0x01#8 } (fun t => (t.a, t.p.toByte)) = some (0x81#8, 0xA0#8) ∧
    after (hostWrite 0x0201#16 [0xF0#8] { start [0x59#8, 0x00#8, 0x02#8] with a := 0x0F#8, y := 0x01#8 })
      (fun t => (t.a, t.p.toByte, t.total)) = some (0xFF#8, 0xA0#8, 4#64) := by decide

/-- G7 and G9: N and V come from the memory byte, Z from `A & M`, C stays. -/
theorem test_bit :
    after (hostWrite 0x0010#16 [0xC0#8] { start [0x24#8, 0x10#8] with a := 0x01#8 }) (fun t => (t.a, t.p.toByte, t.total)) =
      some (0x01#8, 0xE2#8, 3#64) ∧
    after (hostWrite 0x0200#16 [0x40#8] { start [0x2C#8, 0x00#8, 0x02#8] with a := 0x40#8, p := loadP 0x01#8 })
      (fun t => t.p.toByte) = some 0x61#8 := by decide

/-! #### Branches and jumps -/

/-- B1 and B2, B24: BCC in both flag states, and a target that wraps to page 0. -/
theorem test_bcc :
    after (start [0x90#8, 0x02#8]) (fun t => (t.pc, t.total)) = some (0x8004#16, 3#64) ∧
    after { start [0x90#8, 0x02#8] with p := loadP 0x01#8 } (fun t => (t.pc, t.total)) = some (0x8002#16, 2#64) ∧
    after (hostWrite 0xFFEE#16 [0x90#8, 0x20#8] { start [] with pc := 0xFFEE#16 }) (fun t => (t.pc, t.total)) =
      some (0x0010#16, 4#64) := by decide

/-- B17 and B4. -/
theorem test_bcs :
    after { start [0xB0#8, 0xFC#8] with p := loadP 0x01#8 } (fun t => (t.pc, t.total)) = some (0x7FFE#16, 4#64) ∧
    after (start [0xB0#8, 0x02#8]) (fun t => (t.pc, t.total)) = some (0x8002#16, 2#64) := by decide

/-- B23 and B6. -/
theorem test_beq :
    after { start [0xF0#8, 0x00#8] with p := loadP 0x02#8 } (fun t => (t.pc, t.total)) = some (0x8002#16, 3#64) ∧
    after (start [0xF0#8, 0x02#8]) (fun t => (t.pc, t.total)) = some (0x8002#16, 2#64) := by decide

/-- B22 and B8. -/
theorem test_bne :
    after (start [0xD0#8, 0xFE#8]) (fun t => (t.pc, t.total)) = some (0x8000#16, 3#64) ∧
    after { start [0xD0#8, 0x02#8] with p := loadP 0x02#8 } (fun t => (t.pc, t.total)) = some (0x8002#16, 2#64) := by decide

/-- B21 and B10. -/
theorem test_bmi :
    after { start [0x30#8, 0x7F#8] with p := loadP 0x80#8 } (fun t => (t.pc, t.total)) = some (0x8081#16, 3#64) ∧
    after (start [0x30#8, 0x02#8]) (fun t => (t.pc, t.total)) = some (0x8002#16, 2#64) := by decide

/-- B20 and B12. -/
theorem test_bpl :
    after (start [0x10#8, 0x80#8]) (fun t => (t.pc, t.total)) = some (0x7F82#16, 4#64) ∧
    after { start [0x10#8, 0x02#8] with p := loadP 0x80#8 } (fun t => (t.pc, t.total)) = some (0x8002#16, 2#64) := by decide

/-- B18 and B14: the page is compared with that of the next instruction. -/
theorem test_bvc :
    after (hostWrite 0x80FD#16 [0x50#8, 0x01#8] { start [] with pc := 0x80FD#16 }) (fun t => (t.pc, t.total)) =
      some (0x8100#16, 4#64) ∧
    after { start [0x50#8, 0x02#8] with p := loadP 0x40#8 } (fun t => (t.pc, t.total)) = some (0x8002#16, 2#64) := by decide

/-- B19 and B16. -/
theorem test_bvs :
    after (hostWrite 0x80FE#16 [0x70#8, 0x01#8] { start [] with pc := 0x80FE#16, p := loadP 0x40#8 })
      (fun t => (t.pc, t.total)) = some (0x8101#16, 3#64) ∧
    after (start [0x70#8, 0x02#8]) (fun t => (t.pc, t.total)) = some (0x8002#16, 2#64) := by decide

/-- G11 and M14: the page wrap of the indirect pointer. -/
theorem test_jmp :
    after (hostWrite 0x800B#16 [0x4C#8, 0x0B#8, 0x80#8] { start [] with pc := 0x800B#16 }) (fun t => (t.pc, t.total)) =
      some (0x800B#16, 3#64) ∧
    after (hostWrite 0x02FF#16 [0x34#8, 0x56#8] (hostWrite 0x0200#16 [0x12#8] (start [0x6C#8, 0xFF#8, 0x02#8])))
      (fun t => (t.pc, t.total)) = some (0x1234#16, 5#64) := by decide

/-- G10, X1, X2. -/
theorem test_nop :
    after { start [0xEA#8] with p := allFlags } (fun t => (t.p.toByte, t.pc, t.total, t.bus)) =
      some (0xEF#8, 0x8001#16, 2#64, [.read 0x8000#16]) ∧
    after { start [0x02#8] with p := allFlags } (fun t => (t.p.toByte, t.pc, t.total)) = some (0xEF#8, 0x8001#16, 2#64) ∧
    after (start [0x80#8, 0xFF#8]) (fun t => (t.pc, t.total, t.bus)) = some (0x8001#16, 2#64, [.read 0x8000#16]) := by decide

/-! #### Stack, subroutine, software interrupt -/

/-- K2: the push at `S = 00` writes 0100. -/
theorem test_pha :
    after { start [0x48#8] with a := 0x42#8, sp := 0x00#8 } (fun t => (t.sp, t.mem.read 0x0100#16, t.pc, t.total)) =
      some (0xFF#8, 0x42#8, 0x8001#16, 3#64) := by decide

/-- K4: bits 4 and 5 are set in the pushed byte, not in `P`. -/
theorem test_php :
    after { start [0x08#8] with sp := 0xFD#8, p := loadP 0xC4#8 } (fun t => (t.sp, t.p.toByte, t.mem.read 0x01FD#16)) =
      some (0xFC#8, 0xE4#8, 0xF4#8) := by decide

/-- K7: the pull at `S = FF` reads 0100. -/
theorem test_pla :
    after (hostWrite 0x0100#16 [0x7F#8] (start [0x68#8])) (fun t => (t.a, t.sp, t.p.toByte, t.total)) =
      some (0x7F#8, 0x00#8, 0x20#8, 4#64) := by decide

/-- K9 and K10. -/
theorem test_plp :
    after (hostWrite 0x01FD#16 [0xFF#8] { start [0x28#8] with sp := 0xFC#8 }) (fun t => (t.p.toByte, t.sp)) =
      some (0xEF#8, 0xFD#8) ∧
    after { start [0x28#8] with sp := 0xFC#8, p := allFlags } (fun t => t.p.toByte) = some 0x20#8 := by decide

/-- K11 and K12. -/
theorem test_jsr :
    after (hostWrite 0x8005#16 [0x20#8, 0x10#8, 0x80#8] { start [] with pc := 0x8005#16 })
      (fun t => (t.pc, t.sp, t.mem.read 0x01FF#16, t.mem.read 0x01FE#16, t.total)) =
        some (0x8010#16, 0xFD#8, 0x80#8, 0x07#8, 6#64) ∧
    after (hostWrite 0xFFFE#16 [0x20#8, 0x34#8, 0x12#8] { start [] with pc := 0xFFFE#16 })
      (fun t => (t.pc, t.mem.read 0x01FF#16, t.mem.read 0x01FE#16)) = some (0x1234#16, 0x00#8, 0x00#8) := by decide

/-- K13 and K14. -/
theorem test_rts :
    after (hostWrite 0x01FE#16 [0x07#8, 0x80#8] { start [0x60#8] with sp := 0xFD#8 }) (fun t => (t.pc, t.sp, t.total)) =
      some (0x8008#16, 0xFF#8, 6#64) ∧
    after (hostWrite 0x01FE#16 [0xFF#8, 0xFF#8] { start [0x60#8] with sp := 0xFD#8 }) (fun t => t.pc) = some 0x0000#16 := by
  decide

/-- K16 and K17. -/
theorem test_brk :
    after (hostWrite 0xFFFE#16 [0x00#8, 0x90#8] { start [0x00#8] with p := loadP 0x0D#8 })
      (fun t => (t.p.toByte, t.pc, t.mem.read 0x01FD#16, t.mem.read 0x01FE#16, t.mem.read 0x01FF#16)) =
        some (0x2D#8, 0x9000#16, 0x3D#8, 0x02#8, 0x80#8) ∧
    after (hostWrite 0xFFFE#16 [0x00#8, 0x90#8] { start [0x00#8] with sp := 0x01#8 }) (fun t => (t.sp, t.total, t.bus)) =
      some (0xFE#8, 7#64,
        [.read 0x8000#16, .write 0x0101#16 0x80#8, .write 0x0100#16 0x02#8, .write 0x01FF#16 0x30#8, .read 0xFFFE#16,
          .read 0xFFFF#16]) := by decide

/-- K19. -/
theorem test_rti :
    after (hostWrite 0x01FD#16 [0xC7#8, 0x00#8, 0x90#8] { start [0x40#8] with sp := 0xFC#8 })
      (fun t => (t.p.toByte, t.pc, t.sp, t.total)) = some (0xE7#8, 0x9000#16, 0xFF#8, 6#64) := by decide

/-! #### Flags, loads, stores, transfers, increments -/

/-- L1, L5, L9, L13: from all flags 1. -/
theorem test_clear_flags :
    after { start [0x18#8] with p := allFlags } (fun t => t.p.toByte) = some 0xEE#8 ∧
    after { start [0x58#8] with p := allFlags } (fun t => t.p.toByte) = some 0xEB#8 ∧
    after { start [0xD8#8] with p := allFlags } (fun t => t.p.toByte) = some 0xE7#8 ∧
    after { start [0xB8#8] with p := allFlags } (fun t => t.p.toByte) = some 0xAF#8 := by decide

/-- L4, L8, L12: from all flags 0. -/
theorem test_set_flags :
    after (start [0x38#8]) (fun t => t.p.toByte) = some 0x21#8 ∧ after (start [0x78#8]) (fun t => t.p.toByte) = some 0x24#8 ∧
    after (start [0xF8#8]) (fun t => t.p.toByte) = some 0x28#8 := by decide

/-- D2, D4, D7. -/
theorem test_loads :
    after { start [0xA9#8, 0x00#8] with a := 0xFF#8, p := loadP 0x80#8 } (fun t => (t.a, t.p.toByte)) = some (0x00#8, 0x22#8) ∧
    after (start [0xA2#8, 0xFF#8]) (fun t => (t.x, t.p.toByte)) = some (0xFF#8, 0xA0#8) ∧
    after (hostWrite 0x0011#16 [0x7F#8] { start [0xB4#8, 0x10#8] with x := 0x01#8 }) (fun t => (t.y, t.total)) =
      some (0x7F#8, 4#64) := by decide

/-- D9, D11, D12: one write and no read of the target. -/
theorem test_stores :
    after { start [0x9D#8, 0xFF#8, 0xFF#8] with a := 0x01#8, x := 0x01#8 } (fun t => (t.mem.read 0x0000#16, t.total, t.bus)) =
      some (0x01#8, 5#64, [.read 0x8000#16, .read 0x8001#16, .read 0x8002#16, .write 0x0000#16 0x01#8]) ∧
    after { start [0x96#8, 0xFF#8] with x := 0x07#8, y := 0x02#8 } (fun t => (t.mem.read 0x0001#16, t.total)) =
      some (0x07#8, 4#64) ∧
    after { start [0x84#8, 0x10#8] with y := 0x09#8 } (fun t => (t.mem.read 0x0010#16, t.total)) = some (0x09#8, 3#64) := by
  decide

/-- D13 to D18. -/
theorem test_transfers :
    after { start [0xAA#8] with a := 0x80#8 } (fun t => (t.x, t.p.toByte)) = some (0x80#8, 0xA0#8) ∧
    after { start [0x8A#8] with a := 0x33#8 } (fun t => (t.a, t.p.toByte)) = some (0x00#8, 0x22#8) ∧
    after { start [0xA8#8] with a := 0x01#8, p := loadP 0x02#8 } (fun t => (t.y, t.p.toByte)) = some (0x01#8, 0x20#8) ∧
    after { start [0x98#8] with y := 0xFF#8 } (fun t => (t.a, t.p.toByte)) = some (0xFF#8, 0xA0#8) ∧
    after { start [0xBA#8] with sp := 0xFD#8 } (fun t => (t.x, t.p.toByte)) = some (0xFD#8, 0xA0#8) ∧
    after { start [0x9A#8] with sp := 0x55#8 } (fun t => (t.sp, t.p.toByte)) = some (0x00#8, 0x20#8) := by decide

/-- E1, E3, E5, E6. -/
theorem test_register_increments :
    after { start [0xE8#8] with x := 0xFF#8, p := loadP 0x41#8 } (fun t => (t.x, t.p.toByte)) = some (0x00#8, 0x63#8) ∧
    after (start [0xC8#8]) (fun t => (t.y, t.p.toByte)) = some (0x01#8, 0x20#8) ∧
    after (start [0xCA#8]) (fun t => (t.x, t.p.toByte)) = some (0xFF#8, 0xA0#8) ∧
    after { start [0x88#8] with y := 0x80#8, p := loadP 0x80#8 } (fun t => (t.y, t.p.toByte)) = some (0x7F#8, 0x20#8) := by
  decide

/-- E8 and E11. -/
theorem test_memory_increments :
    after (hostWrite 0x0005#16 [0xFF#8] { start [0xF6#8, 0x10#8] with x := 0xF5#8 })
      (fun t => (t.mem.read 0x0005#16, t.p.toByte, t.total)) = some (0x00#8, 0x22#8, 6#64) ∧
    after { start [0xC6#8, 0x10#8] with a := 0x11#8 } (fun t => (t.mem.read 0x0010#16, t.p.toByte, t.a)) =
      some (0xFF#8, 0xA0#8, 0x11#8) := by decide

/-! #### Ticks -/

/-- T1, tick 1: RESET from an arbitrary state. -/
theorem test_T1 :
    afterTick (triggerReset (hostWrite 0xFFFC#16 [0x00#8, 0x80#8] { start [] with sp := 0x78#8, pc := 0x1234#16, p := loadP 0x69#8 }))
      (fun t => ((t.sp, t.p.toByte, t.pc), t.remaining, t.ctl, t.bus)) =
        some ((0x78#8, 0x6D#8, 0x8000#16), 6, .servicingReset, [.read 0xFFFC#16, .read 0xFFFD#16]) := by decide

/-- T3, tick 5: the IRQ sequence at the boundary after CLI. -/
theorem test_T3 :
    afterTick (setIrqLine true (hostWrite 0xFFFE#16 [0x00#8, 0x90#8] { start [] with pc := 0x8002#16 }))
      (fun t => ((t.sp, t.p.toByte, t.pc), t.remaining, t.ctl, t.bus)) =
        some ((0xFC#8, 0x24#8, 0x9000#16), 6, .servicingIrq,
          [.write 0x01FF#16 0x80#8, .write 0x01FE#16 0x02#8, .write 0x01FD#16 0x20#8, .read 0xFFFE#16, .read 0xFFFF#16]) := by
  decide

/-- T4, tick 1, with the IRQ level true as well (T5): NMI first, whatever I is. -/
theorem test_T4 :
    afterTick (setIrqLine true (triggerNmi (hostWrite 0xFFFA#16 [0x00#8, 0xA0#8] { start [0xEA#8] with p := loadP 0x04#8 })))
      (fun t => (t.p.toByte, t.pc, t.nmiPending, t.ctl, t.mem.read 0x01FD#16)) =
        some (0x24#8, 0xA000#16, false, .servicingNmi, 0x24#8) := by decide

/-- T6, tick 4: RESET discards a budget of 4. -/
theorem test_T6 :
    afterTick (triggerReset { start [] with remaining := 4 }) (fun t => (t.remaining, t.ctl)) = some (6, .servicingReset) := by
  decide

/-- T2: a masked IRQ has no effect. -/
theorem test_T2 :
    afterTick (setIrqLine true { start [0xEA#8] with p := loadP 0x04#8 }) (fun t => (t.p.toByte, t.pc, t.remaining, t.bus)) =
      some (0x24#8, 0x8001#16, 1, [.read 0x8000#16]) := by decide

/-- `State.reset` is power-on, `triggerReset()` and the seven ticks of the RESET budget (R41, R301). -/
theorem test_reset_is_seven_ticks : ticks 7 (triggerReset State.powerOn) = .next State.reset := rfl

/-- The host's load of one instruction: the very next step from reset runs it. -/
theorem test_withFetchWord :
    afterTick (State.reset.withFetchWord 16 0x05A9) (fun t => (t.a, t.pc, t.bus)) =
      some (0x05#8, 0x0002#16, [.read 0x0000#16, .read 0x0001#16]) := by decide

/-! ### The whole table -/

/-- The base counts of R87 for the 256 opcode bytes, row by row. -/
def baseCounts : List Nat :=
  [7, 6, 2, 2, 2, 3, 5, 2, 3, 2, 2, 2, 2, 4, 6, 2] ++
  [2, 5, 2, 2, 2, 4, 6, 2, 2, 4, 2, 2, 2, 4, 7, 2] ++
  [6, 6, 2, 2, 3, 3, 5, 2, 4, 2, 2, 2, 4, 4, 6, 2] ++
  [2, 5, 2, 2, 2, 4, 6, 2, 2, 4, 2, 2, 2, 4, 7, 2] ++
  [6, 6, 2, 2, 2, 3, 5, 2, 3, 2, 2, 2, 3, 4, 6, 2] ++
  [2, 5, 2, 2, 2, 4, 6, 2, 2, 4, 2, 2, 2, 4, 7, 2] ++
  [6, 6, 2, 2, 2, 3, 5, 2, 4, 2, 2, 2, 5, 4, 6, 2] ++
  [2, 5, 2, 2, 2, 4, 6, 2, 2, 4, 2, 2, 2, 4, 7, 2] ++
  [2, 6, 2, 2, 3, 3, 3, 2, 2, 2, 2, 2, 4, 4, 4, 2] ++
  [2, 6, 2, 2, 4, 4, 4, 2, 2, 5, 2, 2, 2, 5, 2, 2] ++
  [2, 6, 2, 2, 3, 3, 3, 2, 2, 2, 2, 2, 4, 4, 4, 2] ++
  [2, 5, 2, 2, 4, 4, 4, 2, 2, 4, 2, 2, 4, 4, 4, 2] ++
  [2, 6, 2, 2, 3, 3, 5, 2, 2, 2, 2, 2, 4, 4, 6, 2] ++
  [2, 5, 2, 2, 2, 4, 6, 2, 2, 4, 2, 2, 2, 4, 7, 2] ++
  [2, 6, 2, 2, 3, 3, 5, 2, 2, 2, 2, 2, 4, 4, 6, 2] ++
  [2, 5, 2, 2, 2, 4, 6, 2, 2, 4, 2, 2, 2, 4, 7, 2]

/-- The lengths of R81 for the 256 opcode bytes, row by row. -/
def lengths : List Nat :=
  [1, 2, 1, 1, 1, 2, 2, 1, 1, 2, 1, 1, 1, 3, 3, 1] ++
  [2, 2, 1, 1, 1, 2, 2, 1, 1, 3, 1, 1, 1, 3, 3, 1] ++
  [3, 2, 1, 1, 2, 2, 2, 1, 1, 2, 1, 1, 3, 3, 3, 1] ++
  [2, 2, 1, 1, 1, 2, 2, 1, 1, 3, 1, 1, 1, 3, 3, 1] ++
  [1, 2, 1, 1, 1, 2, 2, 1, 1, 2, 1, 1, 3, 3, 3, 1] ++
  [2, 2, 1, 1, 1, 2, 2, 1, 1, 3, 1, 1, 1, 3, 3, 1] ++
  [1, 2, 1, 1, 1, 2, 2, 1, 1, 2, 1, 1, 3, 3, 3, 1] ++
  [2, 2, 1, 1, 1, 2, 2, 1, 1, 3, 1, 1, 1, 3, 3, 1] ++
  [1, 2, 1, 1, 2, 2, 2, 1, 1, 1, 1, 1, 3, 3, 3, 1] ++
  [2, 2, 1, 1, 2, 2, 2, 1, 1, 3, 1, 1, 1, 3, 1, 1] ++
  [2, 2, 2, 1, 2, 2, 2, 1, 1, 2, 1, 1, 3, 3, 3, 1] ++
  [2, 2, 1, 1, 2, 2, 2, 1, 1, 3, 1, 1, 3, 3, 3, 1] ++
  [2, 2, 1, 1, 2, 2, 2, 1, 1, 2, 1, 1, 3, 3, 3, 1] ++
  [2, 2, 1, 1, 1, 2, 2, 1, 1, 3, 1, 1, 1, 3, 3, 1] ++
  [2, 2, 1, 1, 2, 2, 2, 1, 1, 2, 1, 1, 3, 3, 3, 1] ++
  [2, 2, 1, 1, 1, 2, 2, 1, 1, 3, 1, 1, 1, 3, 3, 1]

/-- The cycles of the opcode byte `n` on zero operand bytes, the smaller of both flag states: a branch then is not taken. -/
def cyclesOf (n : Nat) : Nat :=
  let run (p : Status) : Nat :=
    (after { start [BitVec.ofNat 8 n] with p := p } fun t => t.total.toNat).getD 0
  min (run (loadP 0x00#8)) (run (loadP 0xF7#8))

theorem test_base_counts : (List.range 256).map cyclesOf = baseCounts := by decide +kernel

theorem test_lengths :
    (List.range 256).map (fun n => ((decodeTableWord 8 n).map Instr.length).getD 0) = lengths := by decide +kernel

/-! ### Witnesses: for every statement with hypotheses a state and operands that meet them all -/

theorem test_witness_encodeThenDecode :
    (Instr.lda (.imm 0x05#8)).wellFormed = true ∧ (Instr.jmp (.ind 0xFFFF#16)).wellFormed = true ∧
    (Instr.nopUnofficial 0xFF#8).wellFormed = true := by decide

theorem test_witness_decodeThenEncode : decode [0xA9#8, 0x05#8, 0xEA#8] = .ok (.lda (.imm 0x05#8), [0xEA#8]) := by decide

/-- The three lengths that an opcode byte can fix. -/
theorem test_witness_opcodeLength :
    (entryOf 0xEA#8).operandBytes = 0 ∧ (entryOf 0xA9#8).operandBytes = 1 ∧ (entryOf 0x4C#8).operandBytes = 2 := by decide

theorem test_witness_readyToExecute : (start [0xA9#8, 0x05#8]).ReadyToExecute ∧
    decode (start [0xA9#8, 0x05#8]).bytesAtPc = .ok (.lda (.imm 0x05#8), [0x00#8]) := by
  unfold State.ReadyToExecute; decide

/-- Ready also with the IRQ level true and I set. -/
theorem test_witness_readyMasked : (setIrqLine true { start [0x58#8] with p := allFlags }).ReadyToExecute := by
  unfold State.ReadyToExecute; decide

theorem test_witness_invariant : (start [0x8D#8, 0x00#8, 0x02#8]).Inv ∧ ∃ t, step (start [0x8D#8, 0x00#8, 0x02#8]) = .next t :=
  ⟨by unfold State.Inv Memory.wf; decide, _, rfl⟩

theorem test_witness_countDown :
    ({ start [] with remaining := 1 }).resetPending = false ∧ 0 < ({ start [] with remaining := 1 }).remaining ∧
    0 < ({ start [] with remaining := 7 }).remaining := by decide

/-- Both ways to dispatch: a RESET in mid-budget, and a boundary. -/
theorem test_witness_dispatches :
    (triggerReset { start [] with remaining := 4 }).resetPending = true ∧ (start []).remaining = 0 := by decide

theorem test_witness_stepAnswers : ∃ t, step (triggerNmi { start [] with remaining := 3 }) = .next t := ⟨_, rfl⟩

theorem test_witness_memoryChanges :
    ∃ t, step { start [0x8D#8, 0x00#8, 0x02#8] with a := 0xF4#8 } = .next t ∧ t.mem.read 0x0200#16 = 0xF4#8 :=
  ⟨_, rfl, by decide⟩

theorem test_witness_freeValues :
    ∃ t, step { start [0x69#8, 0x01#8] with a := 0x0A#8, p := loadP 0x08#8 } = .next t ∧ t.freeDraws ≠ 0 :=
  ⟨_, rfl, by decide⟩

theorem test_witness_nmi :
    (triggerNmi (start [])).resetPending = false ∧ (triggerNmi (start [])).remaining = 0 ∧
    (triggerNmi (start [])).nmiPending = true := by decide

theorem test_witness_irq :
    (setIrqLine true (start [])).resetPending = false ∧ (setIrqLine true (start [])).remaining = 0 ∧
    (setIrqLine true (start [])).nmiPending = false ∧ (setIrqLine true (start [])).irqLine = true ∧
    (setIrqLine true (start [])).p.i = false := by decide

theorem test_witness_masked : ({ start [] with p := allFlags }).p.i = true := by decide

theorem test_witness_cli :
    (setIrqLine true { start [0x58#8] with p := allFlags }).irqLine = true ∧
    (setIrqLine true { start [0x58#8] with p := allFlags }).mem.read 0x8000#16 = 0x58#8 := by decide

/-- Both sides of a page cross: a low-byte sum of 255 and one of 256, and the wrap at the top. -/
theorem test_witness_pageCross :
    pagesDiffer (0x12FE#16 + zext16 0x01#8) 0x12FE#16 = false ∧ pagesDiffer (0x12FF#16 + zext16 0x01#8) 0x12FF#16 = true ∧
    pagesDiffer (0xFFF0#16 + zext16 0x20#8) 0xFFF0#16 = true := by decide

theorem test_witness_binary : (start []).p.d = false := by decide

theorem test_witness_decimal :
    ({ start [] with a := 0x99#8, p := loadP 0x08#8 }).p.d = true ∧ IsBcd 0x99#8 ∧
    IsBcd (operandValue (.imm 0x00#8) (start [])).value := by unfold IsBcd; decide

/-- A digit of 10 in either half, of A or of the operand. -/
theorem test_witness_invalidBcd :
    ¬ (IsBcd 0x0A#8 ∧ IsBcd (operandValue (.imm 0x01#8) (start [])).value) ∧
    ¬ (IsBcd 0x10#8 ∧ IsBcd (operandValue (.imm 0xA0#8) (start [])).value) := by unfold IsBcd; decide

theorem test_witness_roundTrip :
    (start []).p.c = false ∧ (∃ t, exec (.adc (.imm 0xFF#8)) { start [] with a := 0x80#8 } = .next t) ∧
    ({ start [] with p := loadP 0x08#8 }).p.c = false ∧ ({ start [] with p := loadP 0x08#8 }).p.d = true ∧
    (IsBcd 0x99#8 ∧ IsBcd 0x01#8) ∧
    ∃ t, exec (.adc (.imm 0x01#8)) { start [] with a := 0x99#8, p := loadP 0x08#8 } = .next t :=
  ⟨rfl, ⟨_, rfl⟩, rfl, rfl, by unfold IsBcd; decide, _, rfl⟩

theorem test_witness_unofficial :
    0x02#8 ∈ unofficialOpcodes ∧ 0xFF#8 ∈ unofficialOpcodes ∧ (start [0xEA#8]).ReadyToExecute ∧
    (start [0xEA#8]).mem.read (start [0xEA#8]).pc = 0xEA#8 ∧ (start [0x02#8]).mem.read (start [0x02#8]).pc = 0x02#8 := by
  unfold State.ReadyToExecute; decide

theorem test_witness_pushes :
    (∃ t, exec .pha (start []) = .next t) ∧ (∃ t, exec .php (start []) = .next t) ∧
    ∃ t, exec (.jsr 0x9000#16) (start []) = .next t := ⟨⟨_, rfl⟩, ⟨_, rfl⟩, _, rfl⟩

theorem test_witness_writingForms :
    (Instr.sta (.aby 0#16)).wellFormed = true ∧ (Instr.stx (.zpy 0#8)).wellFormed = true ∧
    (Instr.sty (.zpx 0#8)).wellFormed = true ∧ (Instr.asl (.mem (.abx 0#16))).wellFormed = true ∧
    (Instr.dec (.zp0 0#8)).wellFormed = true := by decide

/-- A stored byte and a byte outside it: the frames speak of both. -/
theorem test_witness_frameMemory :
    (0x0201#16 : Addr) ∉ [(resolve (.abs 0x0200#16) (start [])).addr] ∧
    (0x0200#16 : Addr) ∈ [(resolve (.abs 0x0200#16) (start [])).addr] := by decide

end Sys2Proof.Tests
end

section
/-! The bus record and the count of free values: what every operation and instruction adds to each of them, and from
that the two statements about a step, O13 and O14. -/

namespace Sys2Proof.Proofs

open Sys2Proof.Machine Sys2Proof.Laws

/-! ### Every write is in the bus record -/

/-- From `s` to `t` some accesses were appended to the bus record, and the writes among them, in order, are all that
happened to memory (R9, R61). -/
def LogsWrites (s t : State) : Prop := ∃ l, t.bus = s.bus ++ l ∧ t.mem = applyWrites s.mem l

theorem applyWrites_append (m : Memory) (l k : List BusAccess) :
    applyWrites m (l ++ k) = applyWrites (applyWrites m l) k := by
  induction l generalizing m with
  | nil => rfl
  | cons access l ih => cases access <;> exact ih _

theorem LogsWrites.of_unchanged {s t : State} (hbus : t.bus = s.bus) (hmem : t.mem = s.mem) : LogsWrites s t :=
  ⟨[], by simp [hbus], hmem⟩

theorem LogsWrites.trans {s t u : State} (hst : LogsWrites s t) (htu : LogsWrites t u) : LogsWrites s u := by
  obtain ⟨l, hbus, hmem⟩ := hst
  obtain ⟨k, hbus', hmem'⟩ := htu
  exact ⟨l ++ k, by rw [hbus', hbus, List.append_assoc], by rw [hmem', hmem, applyWrites_append]⟩

/-- The resolver reads pointers and writes nothing (R105). -/
@[simp] theorem applyWrites_pointerReads (mem : Memory) (m : MemOperand) (s : State) (l : List BusAccess) :
    applyWrites mem (pointerReads m s ++ l) = applyWrites mem l := by
  cases m <;> rfl

/-- Reading an operand writes nothing (R119). -/
@[simp] theorem applyWrites_operandReads (mem : Memory) (op : ReadOperand) (s : State) :
    applyWrites mem (operandReads op s) = mem := by
  cases op with
  | imm b => rfl
  | mem m => simp [operandReads, applyWrites]

theorem enterInterrupt_logsWrites (vector : Addr) (b : Bool) (s : State) (h : 512 ≤ vector.toNat)
    (h' : 512 ≤ (vector + 1).toNat) : LogsWrites s (enterInterrupt vector b s) := by
  rw [enterInterrupt_eq vector b s h h']
  exact ⟨_, rfl, rfl⟩

theorem resetSequence_logsWrites (s : State) : LogsWrites s (resetSequence s) := by
  rw [resetSequence_eq]
  exact ⟨_, rfl, rfl⟩

theorem nmiSequence_logsWrites (s : State) : LogsWrites s (nmiSequence s) :=
  enterInterrupt_logsWrites 0xFFFA#16 false { s with nmiPending := false } (by decide) (by decide)

theorem irqSequence_logsWrites (s : State) : LogsWrites s (irqSequence s) :=
  enterInterrupt_logsWrites 0xFFFE#16 false s (by decide) (by decide)

theorem fetch8_logsWrites (s : State) : LogsWrites s (fetch8 s).2 := ⟨[.read s.pc], rfl, rfl⟩

theorem fetchBytes_logsWrites (n : Nat) (s : State) : LogsWrites s (fetchBytes n s).2 := by
  induction n generalizing s with
  | zero => exact .of_unchanged rfl rfl
  | succ n ih => exact (fetch8_logsWrites s).trans (ih (fetch8 s).2)

theorem fetchInstr_logsWrites (s : State) : LogsWrites s (fetchInstr s).2 :=
  (fetch8_logsWrites s).trans (fetchBytes_logsWrites _ (fetch8 s).2)

/-! ### What an instruction adds to the bus record and to the count of draws -/

/-- How many free values ADC or SBC draws for the operand byte `m` (R131, U1). -/
def arithDraws (m : Byte) (s : State) : Nat := if s.p.d && !(validBcd s.a && validBcd m) then 1 else 0

/-- How many free values an instruction draws. -/
def drawsOf (i : Instr) (s : State) : Nat :=
  match i with
  | .adc op | .sbc op => arithDraws (operandValue op s).value s
  | _ => 0

/-- The outcome is a next state with all its writes in the bus record and `n` more free values drawn. -/
def Records (n : Nat) (s : State) (o : Host.Outcome State Fault Refusal) : Prop :=
  ∃ t, o = .next t ∧ LogsWrites s t ∧ t.freeDraws = s.freeDraws + n

theorem finish_records {cycles : Nat} {s t : State} (hlog : LogsWrites s t) (hdraws : t.freeDraws = s.freeDraws) :
    Records 0 s (finish cycles t) :=
  ⟨charge cycles t, rfl, hlog, hdraws⟩

/-- An instruction without a bus access. -/
theorem finish_records_of_unchanged {cycles : Nat} {s t : State} (hbus : t.bus = s.bus) (hmem : t.mem = s.mem)
    (hdraws : t.freeDraws = s.freeDraws) : Records 0 s (finish cycles t) :=
  finish_records (.of_unchanged hbus hmem) hdraws

/-- A read instruction draws what its own computation draws for the operand's byte (R119). -/
theorem readInstr_records {draws : Byte → State → Nat} (op : ReadOperand) (sem : Byte → State → State) (s : State)
    (h : ∀ m u, (sem m u).bus = u.bus ∧ (sem m u).mem = u.mem ∧ (sem m u).freeDraws = u.freeDraws + draws m u) :
    Records (draws (operandValue op s).value { s with bus := s.bus ++ operandReads op s }) s (readInstr op sem s) := by
  obtain ⟨hbus, hmem, hdraws⟩ := h (operandValue op s).value { s with bus := s.bus ++ operandReads op s }
  rw [readInstr_eq]
  exact ⟨_, rfl, ⟨operandReads op s, hbus, by simpa using hmem⟩, hdraws⟩

/-- A read instruction that draws nothing. -/
theorem readInstr_records_none (op : ReadOperand) (sem : Byte → State → State) (s : State)
    (h : ∀ m u, (sem m u).bus = u.bus ∧ (sem m u).mem = u.mem ∧ (sem m u).freeDraws = u.freeDraws) :
    Records 0 s (readInstr op sem s) :=
  readInstr_records (draws := fun _ _ => 0) op sem s h

theorem storeInstr_records (m : MemOperand) (v : Byte) (s : State) : Records 0 s (storeInstr m v s) := by
  rw [storeInstr_eq]
  exact ⟨_, rfl, ⟨_, rfl, by simp [applyWrites]⟩, rfl⟩

theorem modifyInstr_records (f : Byte → Byte) (m : MemOperand) (s : State) : Records 0 s (modifyInstr f m s) := by
  rw [modifyInstr_eq]
  exact ⟨_, rfl, ⟨_, rfl, by simp [applyWrites]⟩, rfl⟩

theorem shiftInstr_records (f : Byte → Bool → ShiftResult) (op : ShiftOperand) (s : State) :
    Records 0 s (shiftInstr f op s) := by
  cases op with
  | acc => exact finish_records_of_unchanged rfl rfl rfl
  | mem m =>
    rw [shiftInstr_mem_eq]
    exact ⟨_, rfl, ⟨_, rfl, by simp [applyWrites]⟩, rfl⟩

theorem branch_records (cond : Bool) (d : Byte) (s : State) : Records 0 s (branch cond d s) := by
  cases cond <;> exact finish_records_of_unchanged rfl rfl rfl

/-- The three ways of ADC and SBC: decimal on valid BCD, decimal on anything else, binary (R131 to R133). -/
theorem arith_freeDraws (bin dec : Byte → Byte → Bool → AdderResult) (m : Byte) (s : State) :
    (arith bin dec m s).freeDraws = s.freeDraws + arithDraws m s := by
  unfold arith arithDraws
  cases s.p.d <;> cases validBcd s.a && validBcd m <;> rfl

theorem arithInstr_records (bin dec : Byte → Byte → Bool → AdderResult) (op : ReadOperand) (s : State) :
    Records (arithDraws (operandValue op s).value s) s (readInstr op (arith bin dec) s) := by
  refine readInstr_records op (arith bin dec) s fun m u => ⟨?_, ?_, arith_freeDraws bin dec m u⟩ <;> rw [arith_frame]

/-- Every instruction records its writes, and draws as `drawsOf` says (R9, R61, R131). -/
theorem exec_records (i : Instr) (s : State) : Records (drawsOf i s) s (exec i s) := by
  cases i with
  | adc op | sbc op => exact arithInstr_records _ _ op s
  | asl op | lsr op | rol op | ror op => exact shiftInstr_records _ op s
  | cmp op | cpx op | cpy op | lda op | ldx op | ldy op | and op | ora op | eor op =>
    unfold exec; exact readInstr_records_none op _ s fun _ _ => ⟨rfl, rfl, rfl⟩
  | bit m => unfold exec; exact readInstr_records_none (.mem m) _ s fun _ _ => ⟨rfl, rfl, rfl⟩
  | sta m | stx m | sty m => exact storeInstr_records m _ s
  | inc m | dec m => unfold exec; exact modifyInstr_records _ m s
  | bcc d | bcs d | beq d | bne d | bmi d | bpl d | bvc d | bvs d => exact branch_records _ d s
  | clc | sec | cli | sei | cld | sed | clv => exact finish_records_of_unchanged rfl rfl rfl
  | tax | txa | tay | tya | tsx | txs => exact finish_records_of_unchanged rfl rfl rfl
  | inx | iny | dex | dey | nop | nopUnofficial => exact finish_records_of_unchanged rfl rfl rfl
  | pha | php | pla | plp => exact finish_records ⟨_, rfl, rfl⟩ rfl
  | jsr target => unfold exec execJsr; rw [push16_eq]; exact finish_records ⟨_, rfl, rfl⟩ rfl
  | rts => unfold exec execRts; rw [pull16_eq]; exact finish_records ⟨_, rfl, rfl⟩ rfl
  | brk =>
    unfold exec execBrk
    rw [enterInterrupt_eq _ _ _ (by decide) (by decide)]
    exact finish_records ⟨_, rfl, rfl⟩ rfl
  | rti => unfold exec execRti; rw [returnFromInterrupt_eq]; exact finish_records ⟨_, rfl, rfl⟩ rfl
  | jmp op =>
    cases op with
    | abs a => exact finish_records_of_unchanged rfl rfl rfl
    | ind ptr => exact finish_records ⟨_, congrArg (·.after.bus) (resolveJump_eq (.ind ptr) s), rfl⟩ rfl

/-! ### The fetched bytes and the bytes at `PC` -/

/-- Bytes after a whole instruction do not change its reading (R80, R84). -/
theorem decode_append {bytes rest : List Byte} {i : Instr} (h : decode bytes = .ok (i, rest)) (more : List Byte) :
    decode (bytes ++ more) = .ok (i, rest ++ more) := by
  cases bytes with
  | nil => cases h
  | cons opcode operands =>
    simp only [decode] at h
    split at h <;> cases h <;> simp_all only [decode, List.cons_append]

/-- The bytes fetched are the first of the three bytes at `PC` (R80, R103). -/
theorem bytesAtPc_eq_append (s : State) : ∃ rest, s.bytesAtPc = (fetchInstr s).1 ++ rest := by
  have hv : (fetch8 s).1 = s.mem.read s.pc := rfl
  unfold fetchInstr
  simp only [hv]
  cases entryOf (s.mem.read s.pc) <;>
    simp [Entry.operandBytes, fetchBytes_zero, fetchBytes_one, fetchBytes_two, State.bytesAtPc, BitVec.add_assoc]

/-- What the fetched bytes decode to, the bytes at `PC` decode to. -/
theorem decode_bytesAtPc {s : State} {i : Instr} (h : decode (fetchInstr s).1 = .ok (i, [])) :
    ∃ rest, decode s.bytesAtPc = .ok (i, rest) := by
  obtain ⟨rest, hbytes⟩ := bytesAtPc_eq_append s
  exact ⟨rest, hbytes ▸ decode_append h rest⟩

/-- The operand's byte depends on memory, X and Y only (R105 to R116, R119). -/
theorem operandValue_value_congr {s t : State} (op : ReadOperand) (hmem : t.mem = s.mem) (hx : t.x = s.x)
    (hy : t.y = s.y) : (operandValue op t).value = (operandValue op s).value := by
  have haddr (m : MemOperand) : (resolve m t).addr = (resolve m s).addr := by
    cases m <;> simp [resolve, indexed, zeroPageWord_eq, hmem, hx, hy]
  simp only [operandValue_value, haddr, hmem]

/-- What an instruction draws depends on memory and the registers only, not on `PC`, `ctl` or the bus record. -/
theorem drawsOf_congr {s t : State} (i : Instr) (hmem : t.mem = s.mem) (ha : t.a = s.a) (hx : t.x = s.x)
    (hy : t.y = s.y) (hp : t.p = s.p) : drawsOf i t = drawsOf i s := by
  cases i with
  | adc op | sbc op => simp only [drawsOf, arithDraws, operandValue_value_congr op hmem hx hy, ha, hp]
  | _ => rfl

theorem validBcd_iff (b : Byte) : validBcd b = true ↔ IsBcd b := by simp [validBcd, IsBcd]

/-- ADC and SBC draw once, and only with D set on operands that are not both valid BCD (R131). -/
theorem arithDraws_ne_zero {m : Byte} {s : State} (h : arithDraws m s ≠ 0) :
    arithDraws m s = 1 ∧ s.p.d = true ∧ ¬ (IsBcd s.a ∧ IsBcd m) := by
  simpa [arithDraws, ← validBcd_iff] using h

/-- What draws is an ADC or SBC with D set on an operand that is not valid BCD, and it draws once (R131). -/
theorem drawsOf_ne_zero {i : Instr} {s : State} (h : drawsOf i s ≠ 0) :
    drawsOf i s = 1 ∧ s.p.d = true ∧
      ∃ op, (i = .adc op ∨ i = .sbc op) ∧ ¬ (IsBcd s.a ∧ IsBcd (operandValue op s).value) := by
  cases i with
  | adc op =>
    obtain ⟨hone, hd, hbcd⟩ := arithDraws_ne_zero h
    exact ⟨hone, hd, op, .inl rfl, hbcd⟩
  | sbc op =>
    obtain ⟨hone, hd, hbcd⟩ := arithDraws_ne_zero h
    exact ⟨hone, hd, op, .inr rfl, hbcd⟩
  | _ => exact absurd rfl h

/-! ### What a tick adds before its count-down -/

/-- One instruction logs the reads of its fetch and all its writes, and draws what the instruction at `PC` draws
(R101). -/
theorem executeOne_records (s : State) :
    ∃ i rest, decode s.bytesAtPc = .ok (i, rest) ∧ Records (drawsOf i s) s (executeOne s) := by
  obtain ⟨i, hi⟩ := decode_fetchInstr s
  obtain ⟨rest, hrest⟩ := decode_bytesAtPc hi
  obtain ⟨t, ht, hlog, hdraws⟩ := exec_records i (fetchInstr s).2
  have hcongr : drawsOf i (fetchInstr s).2 = drawsOf i s := by
    rw [fetchInstr_state]
    exact drawsOf_congr i rfl rfl rfl rfl rfl
  have hfetch : (fetchInstr s).2.freeDraws = s.freeDraws := by rw [fetchInstr_state]
  refine ⟨i, rest, hrest, t, (executeOne_eq hi).trans ht, (fetchInstr_logsWrites s).trans hlog, ?_⟩
  rw [hdraws, hcongr, hfetch]

/-- Before its count-down a tick starts an empty bus record and logs every write in it; it draws nothing but what an
instruction that it runs draws (R9, R61, R100). -/
theorem dispatch_records (s : State) :
    Records 0 { s with bus := [] } (dispatch s) ∨
      s.ReadyToExecute ∧ ∃ i rest, decode s.bytesAtPc = .ok (i, rest) ∧
        Records (drawsOf i s) { s with bus := [] } (dispatch s) := by
  rcases dispatch_cases s with ⟨-, hd⟩ | ⟨hreset, hzero, hd⟩ | ⟨-, -, hd⟩
  · exact .inl ⟨_, hd, resetSequence_logsWrites _, rfl⟩
  · rcases atBoundary_cases { s with bus := [] } with ⟨-, hb⟩ | ⟨-, -, -, hb⟩ | ⟨hnmi, hirq, hb⟩
    · exact .inl ⟨_, hd.trans hb, nmiSequence_logsWrites _, rfl⟩
    · exact .inl ⟨_, hd.trans hb, irqSequence_logsWrites _, rfl⟩
    · obtain ⟨i, rest, hi, t, ht, hlog, hdraws⟩ := executeOne_records { s with bus := [], ctl := .running }
      have hcongr : drawsOf i { s with bus := [], ctl := .running } = drawsOf i s :=
        drawsOf_congr i rfl rfl rfl rfl rfl
      rw [hcongr] at hdraws
      exact .inr ⟨⟨hreset, hzero, hnmi, hirq⟩, i, rest, hi, t, (hd.trans hb).trans ht, hlog, hdraws⟩
  · exact .inl ⟨_, hd, .of_unchanged rfl rfl, rfl⟩

/-- A step is a dispatch and a count-down, which touches neither the bus record, memory nor the count of draws (R100). -/
theorem step_of_dispatch {s t : State} {n : Nat} (hstep : step s = .next t)
    (h : Records n { s with bus := [] } (dispatch s)) :
    t.mem = applyWrites s.mem t.bus ∧ t.freeDraws = s.freeDraws + n := by
  obtain ⟨u, hu, ⟨l, hbus, hmem⟩, hdraws⟩ := h
  rw [step_eq, hu, mapNext, endTick_eq] at hstep
  cases hstep
  exact ⟨by simpa [hbus] using hmem, hdraws⟩

/-! ### The statements -/

/-- Settles O13: every operation that writes memory logs the write, and a tick starts its bus record empty. -/
theorem memoryChangesOnlyByBusWrites : Obligations.MemoryChangesOnlyByBusWrites := by
  intro s t hstep
  rcases dispatch_records s with h | ⟨-, i, rest, -, h⟩
  · exact (step_of_dispatch hstep h).1
  · exact (step_of_dispatch hstep h).1

/-- Settles O14: only an instruction draws, and only ADC and SBC on an operand that is not valid BCD. -/
theorem freeValuesOnlyForInvalidBcd : Obligations.FreeValuesOnlyForInvalidBcd := by
  intro s t hstep hne
  rcases dispatch_records s with h | ⟨hready, i, rest, hi, h⟩
  · exact absurd (step_of_dispatch hstep h).2 hne
  · have hdraws := (step_of_dispatch hstep h).2
    obtain ⟨hone, hd, op, hop, hbcd⟩ := drawsOf_ne_zero (i := i) (s := s) (by omega)
    refine ⟨by rw [hdraws, hone], hd, hready, op, rest, ?_, hbcd⟩
    rcases hop with rfl | rfl
    · exact .inl hi
    · exact .inr hi

end Sys2Proof.Proofs
end

section
/-! The length of what the decoder reads, the bus accesses of every instruction, and the controller's fields over a tick:
from these the two statements about what every step keeps and serves, O7 and O11. -/

namespace Sys2Proof.Proofs

open Sys2Proof.Machine Sys2Proof.Laws

/-! ### The decoder reads as many bytes as the instruction is long -/

/-- Whatever the operand bytes are, the instruction that an entry of the opcode map selects has the length that the entry
asks for (R80, R84). -/
def SelectsLength : Entry → Prop
  | .implied i => i.length = 1
  | .byte f => ∀ b, (f b).length = 2
  | .word f => ∀ a, (f a).length = 3
  | .unofficial => ∀ b, (Instr.nopUnofficial b).length = 1

open OpcodeMap in
/-- In every cell of the map R87 the mode of the instruction is that of the cell. -/
theorem row_selectsLength (h : Nat) : ∀ e ∈ row h, SelectsLength e := by
  unfold row
  split <;>
    simp only [List.forall_mem_cons, List.not_mem_nil, false_imp_iff, implies_true, and_true, SelectsLength, imp, imm,
      zp0, zpx, zpy, rel, OpcodeMap.abs, abx, aby, izx, izy, wordOf, un] <;>
    and_intros <;> intros <;> rfl

theorem entryOf_selectsLength (opcode : Byte) : SelectsLength (entryOf opcode) := by
  unfold entryOf
  rw [List.getD_eq_getElem?_getD]
  cases h : (OpcodeMap.row (opcode.toNat / 16))[opcode.toNat % 16]? with
  | none => exact fun _ => rfl
  | some e => exact row_selectsLength _ e (List.mem_of_getElem? h)

/-- The decoder takes exactly the bytes of the instruction it answers (R80, R84). -/
theorem decode_length {bytes rest : List Byte} {i : Instr} (h : decode bytes = .ok (i, rest)) :
    bytes.length = i.length + rest.length := by
  cases bytes with
  | nil => cases h
  | cons opcode operands =>
    have hlength := entryOf_selectsLength opcode
    simp only [decode] at h
    split at h <;> cases h <;> simp_all only [SelectsLength, List.length_cons] <;> omega

/-! ### An instruction and its fetch make at most six bus accesses -/

/-- The fetch makes one access for each byte (R103). -/
theorem fetchBytes_bus_length (n : Nat) (s : State) :
    (fetchBytes n s).2.bus.length = s.bus.length + (fetchBytes n s).1.length := by
  induction n generalizing s with
  | zero => rfl
  | succ n ih =>
    have hrest := ih (fetch8 s).2
    simp only [fetch8_bus, List.length_append, List.length_singleton] at hrest
    simp only [fetchBytes, List.length_cons]
    omega

/-- The fetch of an instruction makes as many accesses as the instruction has bytes (R60, R103). -/
theorem fetchInstr_bus_length {s : State} {i : Instr} (h : decode (fetchInstr s).1 = .ok (i, [])) :
    (fetchInstr s).2.bus.length = s.bus.length + i.length := by
  have hlength := decode_length h
  have hoperands := fetchBytes_bus_length (entryOf (fetch8 s).1).operandBytes (fetch8 s).2
  simp only [fetchInstr, fetch8_bus, List.length_append, List.length_cons, List.length_nil] at *
  omega

/-- The outcome is a next state whose accesses, together with the fetch of `fetched` bytes, are at most six (R60). -/
def FitsBus (fetched : Nat) (s : State) (o : Host.Outcome State Fault Refusal) : Prop :=
  ∃ t, o = .next t ∧ t.bus.length + fetched ≤ s.bus.length + 6

/-- The number of accesses is a literal for each instruction that this serves, so the bound is one that evaluates. -/
theorem finish_fitsBus {fetched cycles : Nat} {s t : State} (l : List BusAccess) (hbus : t.bus = s.bus ++ l)
    (hle : (l.length + fetched).ble 6 = true) : FitsBus fetched s (finish cycles t) := by
  have := Nat.le_of_ble_eq_true hle
  exact ⟨charge cycles t, rfl, by rw [charge_bus, hbus, List.length_append]; omega⟩

/-- An instruction without a bus access. -/
theorem finish_fitsBus_of_unchanged {fetched cycles : Nat} {s t : State} (hbus : t.bus = s.bus)
    (hle : fetched.ble 6 = true) : FitsBus fetched s (finish cycles t) :=
  finish_fitsBus [] (by simp [hbus]) (by simpa using hle)

/-- A mode with a pointer has one operand byte, so there is room for the pointer's two reads (R115, R116). -/
theorem pointerReads_length_le (m : MemOperand) (s : State) :
    (pointerReads m s).length + m.mode.operandBytes ≤ 3 := by
  cases m <;> simp [pointerReads, MemOperand.mode, Mode.operandBytes]

theorem operandReads_length_le (op : ReadOperand) (s : State) :
    (operandReads op s).length + op.mode.operandBytes ≤ 4 := by
  cases op with
  | imm b => simp [operandReads, ReadOperand.mode, Mode.operandBytes]
  | mem m =>
    have := pointerReads_length_le m s
    simp only [operandReads, ReadOperand.mode, List.length_append, List.length_singleton]
    omega

theorem readInstr_fitsBus (op : ReadOperand) (sem : Byte → State → State) (s : State)
    (h : ∀ m u, (sem m u).bus = u.bus) : FitsBus (1 + op.mode.operandBytes) s (readInstr op sem s) := by
  have := operandReads_length_le op s
  rw [readInstr_eq]
  exact ⟨_, rfl, by rw [charge_bus, h, List.length_append]; omega⟩

theorem storeInstr_fitsBus (m : MemOperand) (v : Byte) (s : State) :
    FitsBus (1 + m.mode.operandBytes) s (storeInstr m v s) := by
  have := pointerReads_length_le m s
  rw [storeInstr_eq]
  exact ⟨_, rfl, by simp; omega⟩

theorem modifyInstr_fitsBus (f : Byte → Byte) (m : MemOperand) (s : State) :
    FitsBus (1 + m.mode.operandBytes) s (modifyInstr f m s) := by
  have := pointerReads_length_le m s
  rw [modifyInstr_eq]
  exact ⟨_, rfl, by simp; omega⟩

theorem shiftInstr_fitsBus (f : Byte → Bool → ShiftResult) (op : ShiftOperand) (s : State) :
    FitsBus (1 + op.mode.operandBytes) s (shiftInstr f op s) := by
  cases op with
  | acc => exact finish_fitsBus_of_unchanged rfl rfl
  | mem m =>
    have := pointerReads_length_le m s
    rw [shiftInstr_mem_eq]
    exact ⟨_, rfl, by simp [ShiftOperand.mode]; omega⟩

theorem branch_fitsBus (cond : Bool) (d : Byte) (s : State) : FitsBus 2 s (branch cond d s) := by
  cases cond <;> exact finish_fitsBus_of_unchanged rfl rfl

/-- Every instruction leaves room in the six accesses of a tick for its own fetch; BRK needs them all (R60). -/
theorem exec_fitsBus (i : Instr) (s : State) : FitsBus i.length s (exec i s) := by
  cases i with
  | adc op | sbc op => exact readInstr_fitsBus op _ s fun m u => by rw [arith_frame]
  | asl op | lsr op | rol op | ror op => exact shiftInstr_fitsBus _ op s
  | cmp op | cpx op | cpy op | lda op | ldx op | ldy op | and op | ora op | eor op =>
    unfold exec; exact readInstr_fitsBus op _ s fun _ _ => rfl
  | bit m => unfold exec; exact readInstr_fitsBus (.mem m) _ s fun _ _ => rfl
  | sta m | stx m | sty m => exact storeInstr_fitsBus m _ s
  | inc m | dec m => unfold exec; exact modifyInstr_fitsBus _ m s
  | bcc d | bcs d | beq d | bne d | bmi d | bpl d | bvc d | bvs d => exact branch_fitsBus _ d s
  | clc | sec | cli | sei | cld | sed | clv => exact finish_fitsBus_of_unchanged rfl rfl
  | tax | txa | tay | tya | tsx | txs => exact finish_fitsBus_of_unchanged rfl rfl
  | inx | iny | dex | dey | nop => exact finish_fitsBus_of_unchanged rfl rfl
  | nopUnofficial => exact finish_fitsBus_of_unchanged rfl rfl
  | pha | php | pla | plp => exact finish_fitsBus [_] rfl rfl
  | jsr target => unfold exec execJsr; rw [push16_eq]; exact finish_fitsBus [_, _] rfl rfl
  | rts => unfold exec execRts; rw [pull16_eq]; exact finish_fitsBus [_, _] rfl rfl
  | brk =>
    unfold exec execBrk
    rw [enterInterrupt_eq _ _ _ (by decide) (by decide)]
    exact finish_fitsBus [_, _, _, _, _] rfl rfl
  | rti => unfold exec execRti; rw [returnFromInterrupt_eq]; exact finish_fitsBus [_, _, _] rfl rfl
  | jmp op =>
    cases op with
    | abs a => exact finish_fitsBus_of_unchanged rfl rfl
    | ind ptr => exact finish_fitsBus [_, _] (congrArg (·.after.bus) (resolveJump_eq (.ind ptr) s)) rfl

/-! ### What a tick does to the controller -/

/-- One instruction, its fetch included, leaves the controller and the host's inputs alone (R32, R101). -/
theorem executeOne_completes (s : State) : Completes (executeOne s) s := by
  obtain ⟨i, hi⟩ := decode_fetchInstr s
  have h := exec_completes i (fetchInstr s).2
  rw [fetchInstr_state] at h
  rw [executeOne_eq hi, fetchInstr_state]
  exact h

theorem executeOne_fitsBus (s : State) : FitsBus 0 s (executeOne s) := by
  obtain ⟨i, hi⟩ := decode_fetchInstr s
  obtain ⟨t, ht, hle⟩ := exec_fitsBus i (fetchInstr s).2
  rw [fetchInstr_bus_length hi] at hle
  exact ⟨t, (executeOne_eq hi).trans ht, by omega⟩

/-- What the tick's dispatch makes of the controller: a pending RESET is served at once, a latched NMI at a boundary, and the
budget is the old one or a new one of at most 7 (R100, R33, R36 to R38). -/
structure Serves (s u : State) : Prop where
  total : u.total = s.total
  irqLine : u.irqLine = s.irqLine
  resetPending : u.resetPending = false
  nmiPending : u.nmiPending = true ↔ s.nmiPending = true ∧ s.resetPending = false ∧ s.remaining ≠ 0
  remaining : u.remaining ≤ max 7 s.remaining
  accesses : u.bus.length ≤ 6

theorem dispatch_serves (s : State) : ∃ u, dispatch s = .next u ∧ Serves s u := by
  rcases dispatch_cases s with ⟨hreset, hd⟩ | ⟨hreset, hzero, hd⟩ | ⟨hreset, hbudget, hd⟩
  · refine ⟨_, hd, ?_⟩
    rw [resetSequence_eq]
    constructor <;> simp [hreset]
  · rcases atBoundary_cases { s with bus := [] } with ⟨-, hb⟩ | ⟨hnmi, -, -, hb⟩ | ⟨hnmi, -, hb⟩
    · refine ⟨_, hd.trans hb, ?_⟩
      rw [nmiSequence_eq, enterInterrupt_eq _ _ _ (by decide) (by decide)]
      constructor <;> simp [hreset, hzero]
    · refine ⟨_, hd.trans hb, ?_⟩
      rw [irqSequence_eq, enterInterrupt_eq _ _ _ (by decide) (by decide)]
      constructor <;> simp_all
    · obtain ⟨t, ht, -, hle, htotal, -, hr, hn, hirq⟩ := executeOne_completes { s with bus := [], ctl := .running }
      obtain ⟨t', ht', haccesses⟩ := executeOne_fitsBus { s with bus := [], ctl := .running }
      obtain rfl : t = t' := by simpa [ht] using ht'
      exact ⟨t, (hd.trans hb).trans ht, htotal, hirq, hr.trans hreset, by simp_all, by omega, haccesses⟩
  · refine ⟨_, hd, ?_⟩
    constructor <;> simp [hreset, hbudget]

/-- A step is a dispatch and the count-down of one cycle (R100). -/
theorem step_serves {s t : State} (h : step s = .next t) : ∃ u, Serves s u ∧ t = endTick u := by
  obtain ⟨u, hu, hserves⟩ := dispatch_serves s
  rw [step_eq, hu] at h
  cases h
  exact ⟨u, hserves, rfl⟩

/-! ### The statements -/

theorem applyWrites_wf {m : Memory} (h : m.wf) (l : List BusAccess) : (applyWrites m l).wf := by
  induction l generalizing m with
  | nil => exact h
  | cons access l ih =>
    cases access with
    | read a => exact ih h
    | write a v => exact ih (Memory.write_wf h a v)

/-- Settles O7: memory changes by writes only, which keep its form; a budget is at most 7 and its last cycle makes `ctl`
running; and an instruction with its fetch makes at most six accesses. -/
theorem everyStepKeepsTheInvariant : Obligations.EveryStepKeepsTheInvariant := by
  rintro s t ⟨hwf, hbudget, -, -⟩ hstep
  have hmem := memoryChangesOnlyByBusWrites s t hstep
  obtain ⟨u, hserves, rfl⟩ := step_serves hstep
  have hremaining := hserves.remaining
  rw [endTick_eq] at *
  refine ⟨hmem ▸ applyWrites_wf hwf _, ?_, fun hzero => if_pos hzero, hserves.accesses⟩
  dsimp only
  omega

/-- Settles O11: the dispatch leaves the tick count and the level, and serves the latches; the count-down adds one. -/
theorem everyStepCountsOneCycleAndServesLatches : Obligations.EveryStepCountsOneCycleAndServesLatches := by
  intro s t hstep
  obtain ⟨u, hserves, rfl⟩ := step_serves hstep
  rw [endTick_eq]
  exact ⟨by simp [hserves.total], hserves.irqLine, hserves.resetPending, hserves.nmiPending⟩

end Sys2Proof.Proofs
end

section
/-! An instruction neither reads nor changes the tick count and the IRQ level; from that, O12. -/

namespace Sys2Proof.Proofs

open Sys2Proof.Machine Sys2Proof.Laws

/-! ### No instruction reads the tick count or the IRQ level -/

/-- The state with its tick count and its IRQ level replaced, each by a function of the old one: so that what is said of the
two can be used of either alone, the other one passed on by `id`. -/
def withTotalAndLevel (f : BitVec 64 → BitVec 64) (g : Bool → Bool) (s : State) : State :=
  { s with total := f s.total, irqLine := g s.irqLine }

section
variable (f : BitVec 64 → BitVec 64) (g : Bool → Bool)

theorem resolve_withTotalAndLevel (m : MemOperand) (s : State) :
    resolve m (withTotalAndLevel f g s) =
      { resolve m s with after := withTotalAndLevel f g (resolve m s).after } := by
  cases m <;> rfl

theorem operandValue_withTotalAndLevel (op : ReadOperand) (s : State) :
    operandValue op (withTotalAndLevel f g s) =
      { operandValue op s with after := withTotalAndLevel f g (operandValue op s).after } := by
  cases op with
  | imm b => rfl
  | mem m => cases m <;> rfl

theorem readInstr_withTotalAndLevel (op : ReadOperand) (sem : Byte → State → State) (s : State)
    (h : ∀ m u, sem m (withTotalAndLevel f g u) = withTotalAndLevel f g (sem m u)) :
    readInstr op sem (withTotalAndLevel f g s) = mapNext (withTotalAndLevel f g) (readInstr op sem s) := by
  simp only [readInstr, operandValue_withTotalAndLevel, h]
  rfl

theorem storeInstr_withTotalAndLevel (m : MemOperand) (v : Byte) (s : State) :
    storeInstr m v (withTotalAndLevel f g s) = mapNext (withTotalAndLevel f g) (storeInstr m v s) := by
  simp only [storeInstr, resolve_withTotalAndLevel]
  rfl

theorem modifyInstr_withTotalAndLevel (r : Byte → Byte) (m : MemOperand) (s : State) :
    modifyInstr r m (withTotalAndLevel f g s) = mapNext (withTotalAndLevel f g) (modifyInstr r m s) := by
  simp only [modifyInstr, resolve_withTotalAndLevel]
  rfl

theorem shiftInstr_withTotalAndLevel (r : Byte → Bool → ShiftResult) (op : ShiftOperand) (s : State) :
    shiftInstr r op (withTotalAndLevel f g s) = mapNext (withTotalAndLevel f g) (shiftInstr r op s) := by
  cases op with
  | acc => rfl
  | mem m =>
    simp only [shiftInstr, resolve_withTotalAndLevel]
    rfl

theorem branch_withTotalAndLevel (cond : Bool) (d : Byte) (s : State) :
    branch cond d (withTotalAndLevel f g s) = mapNext (withTotalAndLevel f g) (branch cond d s) := by
  cases cond <;> rfl

theorem arith_withTotalAndLevel (bin dec : Byte → Byte → Bool → AdderResult) (m : Byte) (s : State) :
    arith bin dec m (withTotalAndLevel f g s) = withTotalAndLevel f g (arith bin dec m s) := by
  simp only [arith, apply_ite (withTotalAndLevel f g)]
  rfl

/-- Every instruction reads neither the tick count nor the IRQ level and leaves both alone (R34, R38). -/
theorem exec_withTotalAndLevel (i : Instr) (s : State) :
    exec i (withTotalAndLevel f g s) = mapNext (withTotalAndLevel f g) (exec i s) := by
  cases i with
  | adc op | sbc op =>
    unfold exec; exact readInstr_withTotalAndLevel f g op _ s (arith_withTotalAndLevel f g _ _)
  | cmp op | cpx op | cpy op | lda op | ldx op | ldy op | and op | ora op | eor op =>
    unfold exec; exact readInstr_withTotalAndLevel f g op _ s fun _ _ => rfl
  | bit m => unfold exec; exact readInstr_withTotalAndLevel f g (.mem m) _ s fun _ _ => rfl
  | asl op | lsr op | rol op | ror op => exact shiftInstr_withTotalAndLevel f g _ op s
  | sta m | stx m | sty m => exact storeInstr_withTotalAndLevel f g m _ s
  | inc m | dec m => unfold exec; exact modifyInstr_withTotalAndLevel f g _ m s
  | bcc d | bcs d | beq d | bne d | bmi d | bpl d | bvc d | bvs d => exact branch_withTotalAndLevel f g _ d s
  | jmp op => cases op <;> rfl
  | pha | php | pla | plp => rfl
  | jsr target => simp only [exec, execJsr, push16_eq]; rfl
  | rts => simp only [exec, execRts, pull16_eq]; rfl
  | brk =>
    simp only [exec, execBrk]
    rw [enterInterrupt_eq _ _ _ (by decide) (by decide), enterInterrupt_eq _ _ _ (by decide) (by decide)]
    rfl
  | rti => simp only [exec, execRti, returnFromInterrupt_eq]; rfl
  | clc | sec | cli | sei | cld | sed | clv => rfl
  | tax | txa | tay | tya | tsx | txs | inx | iny | dex | dey | nop | nopUnofficial => rfl

theorem fetchBytes_withTotalAndLevel (n : Nat) (s : State) :
    fetchBytes n (withTotalAndLevel f g s) =
      ((fetchBytes n s).1, withTotalAndLevel f g (fetchBytes n s).2) := by
  induction n generalizing s with
  | zero => rfl
  | succ n ih =>
    have hrest := ih (fetch8 s).2
    simp only [fetchBytes]
    exact congrArg (fun q => ((fetch8 s).1 :: q.1, q.2)) hrest

theorem fetchInstr_withTotalAndLevel (s : State) :
    fetchInstr (withTotalAndLevel f g s) = ((fetchInstr s).1, withTotalAndLevel f g (fetchInstr s).2) :=
  congrArg (fun q => ((fetch8 s).1 :: q.1, q.2)) (fetchBytes_withTotalAndLevel f g _ (fetch8 s).2)

theorem executeOne_withTotalAndLevel (s : State) :
    executeOne (withTotalAndLevel f g s) = mapNext (withTotalAndLevel f g) (executeOne s) := by
  obtain ⟨i, hi⟩ := decode_fetchInstr s
  have hfetch := fetchInstr_withTotalAndLevel f g s
  have hi' : decode (fetchInstr (withTotalAndLevel f g s)).1 = .ok (i, []) := by rw [hfetch]; exact hi
  rw [executeOne_eq hi, executeOne_eq hi', hfetch, exec_withTotalAndLevel]

end

/-! ### The statement -/

theorem mapNext_mapNext (f g : State → State) (o : Host.Outcome State Fault Refusal) :
    mapNext f (mapNext g o) = mapNext (f ∘ g) o := by
  cases o <;> rfl

/-- The state but for its tick count and its `ctl`. -/
def forgetTotalCtl (s : State) : State := { s with total := 0#64, ctl := .running }

/-- The count-down does not read the tick count or `ctl`: it can come after they are forgotten (R100). -/
theorem forgetTotalCtl_comp_endTick :
    forgetTotalCtl ∘ endTick = (fun s => { s with remaining := s.remaining - 1 }) ∘ forgetTotalCtl := by
  funext s
  simp [forgetTotalCtl, endTick_eq]

/-- A tick begins with an empty bus record and either writes `ctl` or only passes it on (R100). -/
theorem dispatch_forgets (s : State) (n : BitVec 64) (c : Ctl) (b : List BusAccess) :
    mapNext forgetTotalCtl (dispatch { s with total := n, ctl := c, bus := b }) =
      mapNext forgetTotalCtl (dispatch s) := by
  have hexec : executeOne { s with total := n, ctl := .running, bus := [] } =
      mapNext (withTotalAndLevel (fun _ => n) id) (executeOne { s with ctl := .running, bus := [] }) :=
    executeOne_withTotalAndLevel (fun _ => n) id { s with ctl := .running, bus := [] }
  simp only [dispatch, atBoundary]
  split_ifs with hreset hboundary hnmi hirq
  · rfl
  · rfl
  · rfl
  · rw [hexec, mapNext_mapNext]
    rfl
  · rfl

/-- Settles O12: an instruction runs alike with any tick count, and what else a tick does reads none of the three. -/
theorem noOutcomeDependsOnTotalCtlOrPastAccesses : Obligations.NoOutcomeDependsOnTotalCtlOrPastAccesses := by
  intro s n c b
  change mapNext forgetTotalCtl _ = mapNext forgetTotalCtl _
  rw [step_eq, step_eq, mapNext_mapNext, mapNext_mapNext, forgetTotalCtl_comp_endTick, ← mapNext_mapNext,
    ← mapNext_mapNext, dispatch_forgets]

end Sys2Proof.Proofs
end

section
/-! Push, pull and the status byte: where they access, what they leave unchanged and what they restore; from that O38, O39
and O46. -/

namespace Sys2Proof.Proofs

open Sys2Proof.Machine Sys2Proof.Laws

/-! ### Push and pull -/

theorem stackAddr_eq_ofNat {b : Byte} {n : Nat} (h : b.toNat = n) : stackAddr b = BitVec.ofNat 16 (256 + n) := by
  rw [← h, ← stackAddr_toNat, BitVec.ofNat_toNat, BitVec.setWidth_eq]

/-- A frame that names `S` keeps the other three registers. -/
theorem keepsRegs_sp {s t : State} (ha : t.a = s.a) (hx : t.x = s.x) (hy : t.y = s.y) : KeepsRegs [.sp] s t := by
  intro r hr
  cases r with
  | a => exact ha
  | x => exact hx
  | y => exact hy
  | sp => simp at hr

theorem keepsFlags_of_p_eq {s t : State} (h : t.p = s.p) (except : List Flag) : KeepsFlags except s t := by
  intro f _
  simp only [State.flag, h]

/-- A write changes the byte at its own address only (R51). -/
theorem keepsMemory_of_write {s t : State} {a : Addr} {v : Byte} (h : t.mem = s.mem.write a v) :
    KeepsMemory [a] s t := by
  intro b hb
  rw [h, Memory.read_write, if_neg (by simpa using hb)]

/-- A push changes `S` and the byte at `0x0100 + S` only (R57). -/
theorem push_frame (v : Byte) (s : State) : Frame [.sp] [] [stackAddr s.sp] s (push v s) :=
  ⟨keepsRegs_sp rfl rfl rfl, keepsFlags_of_p_eq rfl _, keepsMemory_of_write rfl, ⟨rfl, rfl, rfl, rfl, rfl⟩, rfl⟩

/-- A pull changes `S` only (R58). -/
theorem pull_frame (s : State) : Frame [.sp] [] [] s (pull s).2 :=
  ⟨keepsRegs_sp rfl rfl rfl, keepsFlags_of_p_eq rfl _, fun _ _ => rfl, ⟨rfl, rfl, rfl, rfl, rfl⟩, rfl⟩

/-- The pull's address is the push's, and there the flat RAM holds what was last written (R51, R57, R58). -/
theorem pull_push_value (v : Byte) (s : State) : (pull (push v s)).1 = v := by simp

theorem pull_push_sp (v : Byte) (s : State) : (pull (push v s)).2.sp = s.sp := by simp

/-- Settles O38: the accesses and frames of push and pull, with the stack addresses and `S` as numbers. -/
theorem stackStaysInItsPage : Obligations.StackStaysInItsPage := by
  intro s v
  have hpush : (push v s).sp.toNat = (s.sp.toNat + 255) % 256 := by simp; omega
  have hpull : (pull s).2.sp.toNat = (s.sp.toNat + 1) % 256 := by simp
  simp only [← stackAddr_eq_ofNat (b := s.sp) rfl, ← stackAddr_eq_ofNat hpull]
  exact ⟨stackAddr_toNat s.sp, ⟨by simp, hpush, rfl, push_frame v s, rfl, rfl⟩,
    ⟨rfl, hpull, rfl, pull_frame s, rfl, rfl⟩, pull_push_value v s, pull_push_sp v s⟩

/-! ### The status byte -/

/-- The pushed byte, one bit after another from bit 7 down (R29). -/
theorem pushedP_eq_concat (b : Bool) (p : Status) :
    pushedP b p =
      (((((((BitVec.ofBool p.n).concat p.v).concat true).concat b).concat p.d).concat p.i).concat p.z).concat p.c :=
  rfl

theorem pushedP_toNat (b : Bool) (p : Status) :
    (pushedP b p).toNat =
      128 * p.n.toNat + 64 * p.v.toNat + 32 + 16 * b.toNat + 8 * p.d.toNat + 4 * p.i.toNat + 2 * p.z.toNat +
        p.c.toNat := by
  simp only [pushedP_eq_concat, BitVec.toNat_concat, BitVec.toNat_ofBool, Bool.toNat_true]
  omega

/-- A load takes the six flags from where a push puts them, whatever bit 4 is (R29, R30). -/
@[simp] theorem loadP_pushedP (b : Bool) (p : Status) : loadP (pushedP b p) = p := by
  simp [loadP, pushedP_eq_concat, BitVec.getElem_concat]

/-- `P` read as a byte has bit 5 = 1 and bit 4 = 0 (R26). -/
theorem toByte_and_mask (p : Status) : p.toByte &&& 0x30#8 = 0x20#8 := by
  ext k hk
  interval_cases k <;> simp [Status.toByte, pushedP_eq_concat, BitVec.getElem_concat]

/-- A load keeps six bits of the byte and discards bits 4 and 5 (R26, R30). -/
theorem toByte_loadP (v : Byte) : (loadP v).toByte = v &&& 0xCF#8 ||| 0x20#8 := by
  ext k hk
  interval_cases k <;> simp [Status.toByte, pushedP_eq_concat, loadP, BitVec.getElem_concat]

/-- Settles O39: each clause is one fact about the eight bits of a pushed byte. -/
theorem statusByteLayout : Obligations.StatusByteLayout := fun p b v =>
  ⟨pushedP_toNat b p, rfl, toByte_and_mask p, rfl, toByte_loadP v, loadP_pushedP b p⟩

/-! ### A pull instruction after its push instruction -/

/-- Flags that `setZN` took from a value are Z and N of that value (R28). -/
theorem zeroNegativeOf_of_setZN {v : Byte} {p : Status} {t : State} (h : t.p = setZN v p) : ZeroNegativeOf v t := by
  have hz : v = 0 ↔ v.toNat = 0 := by rw [← BitVec.toNat_inj]; rfl
  have hn : v.getLsbD 7 = true ↔ 128 ≤ v.toNat := by
    rw [← BitVec.msb_eq_getLsbD_last, BitVec.msb_eq_decide]; simp
  exact ⟨by rw [h, setZN_z, beq_iff_eq, hz], by rw [h, setZN_n, hn]⟩

theorem execPla_eq (s : State) :
    exec .pla s = .next (charge 4 { (pull s).2 with a := (pull s).1, p := setZN (pull s).1 s.p }) := rfl

theorem execPlp_eq (s : State) : exec .plp s = .next (charge 4 { (pull s).2 with p := loadP (pull s).1 }) := rfl

/-- Settles O46: a pull gives back the pushed byte and `S`, and a load of a pushed status byte gives back the flags. -/
theorem pullAfterPushRestores : Obligations.PullAfterPushRestores := by
  intro s t
  constructor
  · rintro ⟨⟩
    exact ⟨_, execPla_eq _, by simp, by simp, zeroNegativeOf_of_setZN (p := s.p) (by simp)⟩
  · rintro ⟨⟩
    exact ⟨_, execPlp_eq _, by simp, by simp⟩

end Sys2Proof.Proofs
end

section
/-! The answer of every step, and the 16-bit push and pull of JSR and RTS; from that O6, O42 and O43. -/

namespace Sys2Proof.Proofs

open Sys2Proof.Machine Sys2Proof.Laws

/-! ### Every step answers -/

/-- Settles O6: the dispatch answers a next state in each of its cases, and the count-down keeps it one. -/
theorem everyStepAnswersANextState : Obligations.EveryStepAnswersANextState := by
  intro s
  obtain ⟨u, hu, -⟩ := dispatch_serves s
  exact ⟨endTick u, by rw [step_eq, hu]; rfl⟩

/-! ### Frames in sequence -/

theorem frame_trans {regs : List Reg} {flags : List Flag} {l m : List Addr} {s t u : State}
    (hst : Frame regs flags l s t) (htu : Frame regs flags m t u) : Frame regs flags (l ++ m) s u := by
  obtain ⟨hr, hf, hm, ⟨hctl, hreset, hnmi, hirq, htotal⟩, hdraws⟩ := hst
  obtain ⟨hr', hf', hm', ⟨hctl', hreset', hnmi', hirq', htotal'⟩, hdraws'⟩ := htu
  refine ⟨fun r h => (hr' r h).trans (hr r h), fun f h => (hf' f h).trans (hf f h), fun b h => ?_,
    ⟨hctl'.trans hctl, hreset'.trans hreset, hnmi'.trans hnmi, hirq'.trans hirq, htotal'.trans htotal⟩,
    hdraws'.trans hdraws⟩
  obtain ⟨hl, hm₀⟩ := not_or.1 (mt List.mem_append.2 h)
  exact (hm' b hm₀).trans (hm b hl)

/-- A frame does not speak of `PC` and the budget, so a jump with its count loaded keeps it. -/
theorem frame_charge_pc {regs : List Reg} {flags : List Flag} {stored : List Addr} {s t : State}
    (h : Frame regs flags stored s t) (n : Nat) (a : Addr) :
    Frame regs flags stored s (charge n { t with pc := a }) := h

/-! ### Push and pull of a 16-bit value -/

theorem push16_frame (w : Addr) (s : State) :
    Frame [.sp] [] [stackAddr s.sp, stackAddr (s.sp - 1)] s (push16 w s) :=
  frame_trans (push_frame (hiByte w) s) (push_frame (loByte w) (push (hiByte w) s))

theorem pull16_frame (s : State) : Frame [.sp] [] [] s (pull16 s).2 :=
  frame_trans (pull_frame s) (pull_frame (pull s).2)

/-- The low byte's push goes to another stack location than the high byte's (R57, R59). -/
theorem push16_read_high (w : Addr) (s : State) : (push16 w s).mem.read (stackAddr s.sp) = hiByte w := by
  have hne : s.sp ≠ s.sp - 1#8 := by bv_omega
  simp [push16_eq, stackAddr_inj, hne]

theorem push16_read_low (w : Addr) (s : State) : (push16 w s).mem.read (stackAddr (s.sp - 1)) = loByte w := by
  simp [push16_eq]

theorem push16_sp (w : Addr) (s : State) : (push16 w s).sp = s.sp - 2 := by
  rw [push16_eq]
  exact BitVec.sub_sub _ 1 1

theorem pull16_sp (s : State) : (pull16 s).2.sp = s.sp + 2 := by
  rw [pull16_eq]
  exact BitVec.add_assoc _ 1 1

theorem hiByte_eq_ofNat (w : Addr) : hiByte w = BitVec.ofNat 8 (w.toNat / 256) := by
  rw [← hiByte_toNat, BitVec.ofNat_toNat, BitVec.setWidth_eq]

theorem loByte_eq_ofNat (w : Addr) : loByte w = BitVec.ofNat 8 w.toNat :=
  BitVec.eq_of_toNat_eq (by simp [loByte_toNat])

/-! ### JSR and RTS -/

theorem execJsr_eq (target : Addr) (s : State) :
    exec (.jsr target) s = .next (charge 6 { push16 (s.pc - 1) s with pc := target }) := rfl

theorem execRts_eq (s : State) :
    exec .rts s = .next (charge 6 { (pull16 s).2 with pc := (pull16 s).1 + 1 }) := rfl

/-- Settles O42: JSR is a push of `PC` - 1, high byte first, and a jump. -/
theorem jsrPushesItsLastByteAddress : Obligations.JsrPushesItsLastByteAddress := by
  intro target s ret
  have hret : (s.pc - 1).toNat = ret := by
    rw [BitVec.toNat_sub, Nat.add_comm]; rfl
  have hhigh := congrArg BitVec.toNat (push16_read_high (s.pc - 1) s)
  have hlow := congrArg BitVec.toNat (push16_read_low (s.pc - 1) s)
  have hbus := congrArg (·.bus) (push16_eq (s.pc - 1) s)
  rw [hiByte_toNat, hret] at hhigh
  rw [loByte_toNat, hret] at hlow
  rw [hiByte_eq_ofNat, loByte_eq_ofNat, hret] at hbus
  have hsp := push16_sp (s.pc - 1) s
  have hframe := frame_charge_pc (push16_frame (s.pc - 1) s) 6 target
  exact ⟨rfl, _, execJsr_eq target s, rfl, hsp, hhigh, hlow, hframe, rfl, hbus⟩

/-- Settles O43: RTS is a pull, low byte first, and a jump to the pulled address plus 1. -/
theorem rtsResumesAfterThePulledAddress : Obligations.RtsResumesAfterThePulledAddress := by
  intro s lo hi
  have htwo : s.sp + 1 + 1 = s.sp + 2 := BitVec.add_assoc _ 1 1
  have hpull := pull16_eq s
  rw [htwo] at hpull
  have haddr : (pull16 s).1.toNat = lo + 256 * hi := by rw [hpull, cat_toNat, Nat.add_comm]
  refine ⟨rfl, _, execRts_eq s, ?_, pull16_sp s, frame_charge_pc (pull16_frame s) 6 _, rfl, ?_⟩
  · rw [← haddr]
    exact BitVec.toNat_add _ 1
  · exact congrArg (·.2.bus) hpull

end Sys2Proof.Proofs
end

section
/-! The decoder (R87) against the encoder (R86), and the cycles by operand form: from these the statements about
encoding, O1 to O4, and about counts, O55 and O56. -/

namespace Sys2Proof.Proofs

open Sys2Proof.Machine Sys2Proof.Laws

/-! ### What the decoder answers, by the entry of its opcode byte -/

/-- With these operand bytes after it, an opcode byte with this entry is this instruction (R80, R82, R88). -/
inductive Selects (opcode : Byte) : Entry → List Byte → Instr → Prop
  | implied (i : Instr) : Selects opcode (.implied i) [] i
  | byte (f : Byte → Instr) (b : Byte) : Selects opcode (.byte f) [b] (f b)
  | word (f : Addr → Instr) (a : Addr) : Selects opcode (.word f) [loByte a, hiByte a] (f a)
  | unofficial : Selects opcode .unofficial [] (.nopUnofficial opcode)

/-- The decoder reads the operand bytes that the entry asks for and leaves the rest (R80, R82, R84). -/
theorem decode_cons_iff {opcode : Byte} {tail rest : List Byte} {i : Instr} :
    decode (opcode :: tail) = .ok (i, rest) ↔
      ∃ operands, Selects opcode (entryOf opcode) operands i ∧ tail = operands ++ rest := by
  constructor
  · intro h
    simp only [decode] at h
    split at h <;> cases h <;> rename_i he
    · exact ⟨[], he ▸ .implied _, rfl⟩
    · exact ⟨[], he ▸ .unofficial, rfl⟩
    · exact ⟨[_], he ▸ .byte _ _, rfl⟩
    · rename_i lo hi
      exact ⟨[lo, hi], by simpa [he] using Selects.word (opcode := opcode) _ (cat hi lo), rfl⟩
  · rintro ⟨operands, h, rfl⟩
    generalize he : entryOf opcode = e at h
    cases h <;> simp [decode, he]

/-- An entry selects an instruction for every choice of as many operand bytes as it asks for (R84, R102). -/
theorem exists_selects (opcode : Byte) {e : Entry} {operands : List Byte} (h : operands.length = e.operandBytes) :
    ∃ i, Selects opcode e operands i := by
  cases e with
  | implied i => rw [List.length_eq_zero_iff.1 h]; exact ⟨_, .implied i⟩
  | byte f =>
    obtain ⟨b, rfl⟩ := List.length_eq_one_iff.1 h
    exact ⟨_, .byte f b⟩
  | word f =>
    obtain ⟨lo, hi, rfl⟩ := List.length_eq_two.1 h
    exact ⟨_, by simpa using Selects.word (opcode := opcode) f (cat hi lo)⟩
  | unofficial => rw [List.length_eq_zero_iff.1 h]; exact ⟨_, .unofficial⟩

theorem operandBytes_le_two (e : Entry) : e.operandBytes ≤ 2 := by
  cases e <;> simp [Entry.operandBytes]

/-! ### The map by opcode byte agrees with the rows by mnemonic -/

/-- The rows of R86 give every instruction that an entry selects the opcode byte and the operand bytes it was selected
by. -/
def MatchesRows (opcode : Byte) (e : Entry) : Prop :=
  ∀ operands i, Selects opcode e operands i →
    i.wellFormed = true ∧ i.opcode = some opcode ∧ operands = i.operandBytes

open OpcodeMap in
/-- Every cell of the map R87, numbered by its opcode byte. -/
theorem row_matchesRows {h : Nat} (hh : h < 16) :
    ∀ c ∈ (row h).zipIdx (16 * h), MatchesRows (BitVec.ofNat 8 c.2) c.1 := by
  interval_cases h <;>
    simp only [row, List.zipIdx_cons, List.zipIdx_nil, List.forall_mem_cons, List.not_mem_nil, false_imp_iff,
      implies_true, and_true] <;>
    and_intros <;> rintro _ _ ⟨⟩ <;> exact ⟨rfl, rfl, rfl⟩

theorem row_length {h : Nat} (hh : h < 16) : (OpcodeMap.row h).length = 16 := by
  interval_cases h <;> rfl

theorem entryOf_matchesRows (opcode : Byte) : MatchesRows opcode (entryOf opcode) := by
  have hlt := opcode.isLt
  have hrow : opcode.toNat / 16 < 16 := by omega
  have hcol : opcode.toNat % 16 < (OpcodeMap.row (opcode.toNat / 16)).length := by rw [row_length hrow]; omega
  have hcell : (entryOf opcode, opcode.toNat) ∈
      (OpcodeMap.row (opcode.toNat / 16)).zipIdx (16 * (opcode.toNat / 16)) := by
    refine List.mem_zipIdx_iff_le_and_getElem?_sub.2 ⟨by omega, ?_⟩
    have : opcode.toNat - 16 * (opcode.toNat / 16) = opcode.toNat % 16 := by omega
    rw [this, entryOf, List.getD_eq_getElem _ _ hcol, List.getElem?_eq_getElem hcol]
  simpa using row_matchesRows hrow _ hcell

/-- In the map R87 the bytes listed in R88 are unofficial. -/
theorem entryOf_unofficial : ∀ b ∈ unofficialOpcodes, entryOf b = .unofficial := by
  simp only [unofficialOpcodes, List.cons_append, List.nil_append, List.forall_mem_cons, List.not_mem_nil,
    false_imp_iff, implies_true, and_true]
  and_intros <;> rfl

/-- Every filled cell of the rows R86 stands in the map R87 at its own opcode byte and in the cell's mode. -/
theorem selects_of_opcode {opcode : Byte} {i : Instr} (h : i.opcode = some opcode) :
    Selects opcode (entryOf opcode) i.operandBytes i := by
  cases i with
  | adc op | sbc op | cmp op | cpx op | cpy op | lda op | ldx op | ldy op | and op | ora op | eor op =>
    cases op with
    | imm b => cases h; exact .byte _ b
    | mem m =>
      cases m with
      | zp0 z | zpx z | zpy z | izx z | izy z => cases h <;> exact .byte _ z
      | abs a | abx a | aby a => cases h <;> exact .word _ a
  | asl op | lsr op | rol op | ror op =>
    cases op with
    | acc => cases h; exact .implied _
    | mem m =>
      cases m with
      | zp0 z | zpx z | zpy z | izx z | izy z => cases h <;> exact .byte _ z
      | abs a | abx a | aby a => cases h <;> exact .word _ a
  | sta m | stx m | sty m | inc m | dec m | bit m =>
    cases m with
    | zp0 z | zpx z | zpy z | izx z | izy z => cases h <;> exact .byte _ z
    | abs a | abx a | aby a => cases h <;> exact .word _ a
  | bcc d | bcs d | beq d | bne d | bmi d | bpl d | bvc d | bvs d => cases h; exact .byte _ d
  | jsr a => cases h; exact .word _ a
  | jmp op => cases op <;> cases h <;> exact .word _ _
  | pha | php | pla | plp | rts | brk | rti => cases h; exact .implied _
  | clc | sec | cli | sei | cld | sed | clv => cases h; exact .implied _
  | tax | txa | tay | tya | tsx | txs => cases h; exact .implied _
  | inx | iny | dex | dey | nop => cases h; exact .implied _
  | nopUnofficial b =>
    obtain ⟨hb, rfl⟩ : unofficialOpcodes.contains b = true ∧ b = opcode := by simpa [Instr.opcode] using h
    rw [entryOf_unofficial b (List.contains_iff_mem.1 hb)]
    exact .unofficial

open EncodingLength in
/-- Every operand form that a mnemonic has is a filled cell of its row. -/
theorem exists_opcode {i : Instr} (h : i.wellFormed = true) : ∃ opcode, i.opcode = some opcode := by
  apply Option.isSome_iff_exists.1
  cases i with
  | adc | sbc | cmp | lda | and | ora | eor => exact (aluRow_isSome ..).trans h
  | asl | lsr | rol | ror => exact (shiftRow_isSome ..).trans h
  | cpx | cpy => exact (indexCompareRow_isSome ..).trans h
  | ldx => exact (ldxRow_isSome ..).trans h
  | ldy => exact (ldyRow_isSome ..).trans h
  | sta => exact (staRow_isSome ..).trans h
  | stx => exact (stxRow_isSome ..).trans h
  | sty => exact (styRow_isSome ..).trans h
  | inc | dec => exact (incDecRow_isSome ..).trans h
  | bit => exact (bitRow_isSome ..).trans h
  | jmp op => cases op <;> rfl
  | nopUnofficial b => rw [Instr.opcode, if_pos (show unofficialOpcodes.contains b = true from h)]; rfl
  | bcc | bcs | beq | bne | bmi | bpl | bvc | bvs | jsr | pha | php | pla | plp | rts | brk | rti => rfl
  | clc | sec | cli | sei | cld | sed | clv | tax | txa | tay | tya | tsx | txs => rfl
  | inx | iny | dex | dey | nop => rfl

theorem encode_of_opcode {opcode : Byte} {i : Instr} (h : i.opcode = some opcode) :
    encode i = opcode :: i.operandBytes := by
  simp [encode, h]

/-! ### The statements about encoding -/

/-- Settles O2: the opcode byte that the rows R86 give an instruction selects that instruction in the map R87. -/
theorem encodeThenDecodeGivesTheInstruction : Obligations.EncodeThenDecodeGivesTheInstruction := by
  intro i rest hwf
  obtain ⟨opcode, hop⟩ := exists_opcode hwf
  rw [encode_of_opcode hop]
  exact decode_cons_iff.2 ⟨i.operandBytes, selects_of_opcode hop, rfl⟩

/-- Settles O3: what the map R87 selects has that opcode byte and those operand bytes in the rows R86. -/
theorem decodeThenEncodeGivesTheBytes : Obligations.DecodeThenEncodeGivesTheBytes := by
  intro bytes rest i h
  cases bytes with
  | nil => cases h
  | cons opcode tail =>
    obtain ⟨operands, hsel, rfl⟩ := decode_cons_iff.1 h
    obtain ⟨hwf, hop, rfl⟩ := entryOf_matchesRows opcode operands i hsel
    exact ⟨hwf, by rw [encode_of_opcode hop, List.cons_append]⟩

/-- Settles O4: the number of operand bytes is that of the byte's entry in the map. -/
theorem opcodeByteAloneFixesTheLength : Obligations.OpcodeByteAloneFixesTheLength := by
  intro opcode
  refine ⟨(entryOf opcode).operandBytes, operandBytes_le_two _, fun operands rest hlen => ?_⟩
  obtain ⟨i, hsel⟩ := exists_selects opcode hlen
  obtain ⟨-, hop, -⟩ := entryOf_matchesRows opcode operands i hsel
  have hdecode : decode (opcode :: (operands ++ rest)) = .ok (i, rest) := decode_cons_iff.2 ⟨operands, hsel, rfl⟩
  have hlength := decode_length hdecode
  simp only [List.length_cons, List.length_append] at hlength
  exact ⟨i, hdecode, by omega, hop⟩

/-- Settles O1: each of the fifteen byte strings, decoded. -/
theorem sampleWordsDecode : Obligations.SampleWordsDecode := by
  unfold Obligations.SampleWordsDecode
  and_intros <;> rfl

/-! ### Cycles and bus accesses by operand form -/

/-- A read instruction whose own computation makes no access costs what its form costs and reads its operand only
(R118, R119). -/
theorem readInstr_spends (op : ReadOperand) (sem : Byte → State → State) (s : State)
    (hbus : ∀ v u, (sem v u).bus = u.bus) :
    ∃ t, readInstr op sem s = .next t ∧ Spends (readCycles op (operandValue op s).cross) (operandReads op s) s t :=
  ⟨_, readInstr_eq op sem s, rfl, hbus _ _⟩

theorem arith_bus (bin dec : Byte → Byte → Bool → AdderResult) (m : Byte) (s : State) :
    (arith bin dec m s).bus = s.bus := by
  rw [arith_frame]

theorem readCycles_mem (m : MemOperand) (s : State) :
    readCycles (.mem m) (operandValue (.mem m) s).cross =
      readBase (.mem m) + (readPagePenalty (.mem m) && (resolve m s).cross).toNat := rfl

/-- Settles O55: all twelve are read instructions, and the counts are those of `readCycles` form by form. -/
theorem readInstructionsCostAndAccesses : Obligations.ReadInstructionsCostAndAccesses := by
  intro op s i hi
  have hspends : ∃ t, exec i s = .next t ∧
      Spends (readCycles op (operandValue op s).cross) (operandReads op s) s t := by
    rcases List.mem_append.1 hi with hi | hi
    · simp only [List.mem_cons, List.not_mem_nil, or_false] at hi
      rcases hi with rfl | rfl | hi
      · exact readInstr_spends op _ s (arith_bus addBinary addDecimal)
      · exact readInstr_spends op _ s (arith_bus subBinary subDecimal)
      · rcases hi with rfl | rfl | rfl | rfl | rfl | rfl | rfl | rfl | rfl <;> unfold exec <;>
          exact readInstr_spends op _ s fun _ _ => rfl
    · cases op with
      | imm b => cases hi
      | mem m =>
        rw [List.mem_singleton.1 hi]
        unfold exec; exact readInstr_spends (.mem m) _ s fun _ _ => rfl
  obtain ⟨t, ht, hcycles, hbus⟩ := hspends
  refine ⟨t, ht, ?_⟩
  cases op with
  | imm b => exact ⟨hcycles, hbus⟩
  | mem m =>
    refine ⟨by simpa [operandReads] using hbus, ?_⟩
    rw [hcycles, readCycles_mem]
    cases m with
    | zp0 | zpx | zpy | abs | izx => rfl
    | abx | aby | izy => cases (resolve _ s).cross <;> rfl

/-- On memory the shifts and rotates have the forms of INC and DEC (R140, R224). -/
theorem incDecModes_of_shiftModes {m : MemOperand} (h : shiftModes.contains m.mode = true) :
    incDecModes.contains m.mode = true := by
  cases m <;> exact h

/-- Settles O56: a store costs `storeCycles` and a read-modify-write `rmwCycles`, in which no page cross occurs. -/
theorem writingInstructionsCostNoPenalty : Obligations.WritingInstructionsCostNoPenalty := by
  intro m s
  simp only [List.mem_cons, List.not_mem_nil, or_false]
  constructor
  · intro i hi _
    have hstore : ∃ t, exec i s = .next t ∧ t.remaining = storeCycles m := by
      rcases hi with rfl | rfl | rfl <;> exact ⟨_, storeInstr_eq m _ s, rfl⟩
    obtain ⟨t, ht, hcycles⟩ := hstore
    refine ⟨t, ht, hcycles.trans ?_⟩
    cases m <;> rfl
  · intro i hi hwf
    have hrmw : (∃ t, exec i s = .next t ∧ t.remaining = rmwCycles m) ∧ incDecModes.contains m.mode = true := by
      rcases hi with rfl | rfl | rfl | rfl | hi
      iterate 4 exact ⟨⟨_, shiftInstr_mem_eq _ m s, rfl⟩, incDecModes_of_shiftModes hwf⟩
      rcases hi with rfl | rfl <;> unfold exec <;> exact ⟨⟨_, modifyInstr_eq _ m s, rfl⟩, hwf⟩
    obtain ⟨⟨t, ht, hcycles⟩, hmode⟩ := hrmw
    refine ⟨t, ht, hcycles.trans ?_⟩
    cases m with
    | zp0 | zpx | abs | abx => rfl
    | zpy | aby | izx | izy => cases hmode

end Sys2Proof.Proofs
end

section
/-! The ticks of one budget, and the fetch as one list of reads; from these O5, O9 and O10. -/

namespace Sys2Proof.Proofs

open Sys2Proof.Machine Sys2Proof.Laws

/-! ### A tick with budget left -/

theorem dispatch_of_budget {s : State} (hreset : s.resetPending = false) (hbudget : s.remaining ≠ 0) :
    dispatch s = .next { s with bus := [] } := by
  simp [dispatch, hreset, hbudget]

theorem step_eq_of_dispatch {s u : State} (h : dispatch s = .next u) : step s = .next (endTick u) := by
  rw [step_eq, h, mapNext]

/-- Settles O9: with budget left the dispatch only clears the bus record, and the rest is the count-down. -/
theorem countDownTickOnlyCounts : Obligations.CountDownTickOnlyCounts := by
  intro s hreset hbudget
  have hlast : s.remaining - 1 = 0 ↔ s.remaining = 1 := by omega
  rw [step_eq_of_dispatch (dispatch_of_budget hreset hbudget.ne'), endTick_eq]
  simp only [hlast]

/-! ### The ticks of a whole budget -/

/-- `k` cycles of the budget counted: the last of the budget makes `ctl` running (R34, R35). -/
def countCycles (k : Nat) (u : State) : State :=
  { u with
    remaining := u.remaining - k
    total := u.total + BitVec.ofNat 64 k
    ctl := if u.remaining - k = 0 then .running else u.ctl }

theorem countCycles_endTick {k : Nat} {u : State} (hbudget : u.remaining - 1 ≠ 0) :
    countCycles k (endTick u) = countCycles (k + 1) u := by
  have htotal : u.total + 1 + BitVec.ofNat 64 k = u.total + BitVec.ofNat 64 (k + 1) := by
    rw [BitVec.add_assoc, BitVec.add_comm 1, BitVec.ofNat_add]; rfl
  simp only [countCycles, endTick_eq, if_neg hbudget, Nat.sub_sub, Nat.add_comm 1 k, htotal]

theorem countCycles_remaining (u : State) : countCycles u.remaining u = consumeBudget u := by
  simp [countCycles, consumeBudget]

/-- The tick that dispatches and the ticks after it consume the budget that was loaded, cycle by cycle; those after it make
no bus access (R100, R118). -/
theorem ticks_of_dispatch {k : Nat} (hk : 0 < k) {s u : State} (hdispatch : dispatch s = .next u)
    (hreset : u.resetPending = false) (hle : k ≤ u.remaining) :
    ticks k s = .next { countCycles k u with bus := if k = 1 then u.bus else [] } := by
  induction k, hk using Nat.le_induction generalizing s u with
  | base => rw [ticks, step_eq_of_dispatch hdispatch, endTick_eq]; rfl
  | succ k hk ih =>
    have hbudget : u.remaining - 1 ≠ 0 := by omega
    have hremaining : (endTick u).remaining = u.remaining - 1 := by rw [endTick_eq]
    have hlatch : (endTick u).resetPending = false := by rw [endTick_eq]; exact hreset
    have hnext := dispatch_of_budget hlatch (hremaining ▸ hbudget)
    have hrest := ih hnext hlatch (show k ≤ (endTick u).remaining by omega)
    rw [ticks, step_eq_of_dispatch hdispatch]
    simp only [hrest, ite_self, if_neg (show k + 1 ≠ 1 by omega), ← countCycles_endTick hbudget]
    rfl

/-- A tick that starts a sequence or an instruction loads a budget of at least two cycles (R118, R301, R308). -/
theorem dispatch_loads_budget {s : State} (h : s.resetPending = true ∨ s.remaining = 0) :
    ∃ u, dispatch s = .next u ∧ u.resetPending = false ∧ 2 ≤ u.remaining := by
  obtain ⟨u, hu, hserves⟩ := dispatch_serves s
  have hbudget : ∃ v, dispatch s = .next v ∧ 2 ≤ v.remaining := by
    rcases dispatch_cases s with ⟨-, hd⟩ | ⟨-, -, hd⟩ | ⟨hreset, hbudget, -⟩
    · exact ⟨_, hd, by simp [resetSequence_eq]⟩
    · rcases atBoundary_cases { s with bus := [] } with ⟨-, hb⟩ | ⟨-, -, -, hb⟩ | ⟨-, -, hb⟩
      · exact ⟨_, hd.trans hb, by simp [nmiSequence_eq]⟩
      · exact ⟨_, hd.trans hb, by simp [irqSequence_eq]⟩
      · obtain ⟨v, hv, htwo, -⟩ := executeOne_completes { s with bus := [], ctl := .running }
        exact ⟨v, (hd.trans hb).trans hv, htwo⟩
    · simp [hreset, hbudget] at h
  obtain ⟨v, hv, htwo⟩ := hbudget
  obtain rfl : u = v := by simpa [hu] using hv
  exact ⟨u, hu, hserves.resetPending, htwo⟩

/-- Settles O10: `n` ticks count the `n` cycles that the boundary-to-boundary step counts at once, and a count-down changes
no register, flag or byte of memory. -/
theorem instructionLevelViewAgreesWithTicks : Obligations.InstructionLevelViewAgreesWithTicks := by
  intro s h
  obtain ⟨u, hu, hreset, htwo⟩ := dispatch_loads_budget h
  have hticks {k : Nat} (hk : 0 < k) (hle : k ≤ u.remaining) := ticks_of_dispatch hk hu hreset hle
  have hlast := hticks (by omega) (Nat.le_refl u.remaining)
  rw [countCycles_remaining, if_neg (by omega)] at hlast
  refine ⟨u, consumeBudget u, hu, htwo, by rw [boundaryStep, hu]; rfl, rfl, hlast, fun k hk hlt => ?_⟩
  refine ⟨_, hticks hk hlt.le, ?_, rfl, rfl, rfl, rfl, rfl, rfl, rfl⟩
  exact beq_eq_false_iff_ne.2 (show u.remaining - k ≠ 0 by omega)

/-! ### The fetch -/

/-- `n` bytes fetched are `n` reads at ascending addresses, with `PC` past them (R54, R103). -/
theorem fetchBytes_after (n : Nat) (s : State) :
    (fetchBytes n s).2 =
      { s with
        pc := s.pc + BitVec.ofNat 16 n
        bus := s.bus ++ (List.range n).map fun k => .read (s.pc + BitVec.ofNat 16 k) } := by
  induction n generalizing s with
  | zero => simp [fetchBytes]
  | succ n ih =>
    have haddr (k : Nat) : s.pc + 1 + BitVec.ofNat 16 k = s.pc + BitVec.ofNat 16 (k + 1) := by
      rw [BitVec.add_assoc, BitVec.add_comm 1, BitVec.ofNat_add]; rfl
    have hrest := ih (fetch8 s).2
    simp only [fetch8_pc, fetch8_bus, haddr] at hrest
    rw [fetchBytes, hrest, List.range_succ_eq_map]
    simp [Function.comp_def, fetch8, memRead]

/-- The fetch of an instruction reads as many bytes as the instruction is long (R84, R103). -/
theorem fetchInstr_after {s : State} {i : Instr} (h : decode (fetchInstr s).1 = .ok (i, [])) :
    (fetchInstr s).2 =
      { s with
        pc := s.pc + BitVec.ofNat 16 i.length
        bus := s.bus ++ (List.range i.length).map fun k => .read (s.pc + BitVec.ofNat 16 k) } := by
  have hfetch : (fetchInstr s).2 = (fetchBytes ((entryOf (fetch8 s).1).operandBytes + 1) s).2 := rfl
  have hlength := fetchInstr_bus_length h
  rw [hfetch, fetchBytes_after] at hlength ⊢
  simp only [List.length_append, List.length_map, List.length_range, Nat.add_left_cancel_iff] at hlength
  rw [hlength]

theorem dispatch_of_ready {s : State} (h : s.ReadyToExecute) :
    dispatch s = executeOne { s with bus := [], ctl := .running } := by
  obtain ⟨hreset, hzero, hnmi, hmasked⟩ := h
  have hirq : (s.irqLine && !s.p.i) = false := by simpa using hmasked
  simp [dispatch, atBoundary, hreset, hzero, hnmi, hirq]

/-- Settles O5: the fetched bytes are the first of those at `PC`, so they decode to the same instruction. -/
theorem stepRunsTheDecodedInstruction : Obligations.StepRunsTheDecodedInstruction := by
  intro s i rest hready hi
  obtain ⟨j, hj⟩ := decode_fetchInstr { s with bus := [], ctl := .running }
  obtain ⟨_, hbytes⟩ := decode_bytesAtPc hj
  obtain rfl : i = j := by
    cases hi.symm.trans hbytes
    rfl
  rw [step_eq, dispatch_of_ready hready, executeOne_eq hj, fetchInstr_after hj]
  simp

end Sys2Proof.Proofs
end

section
/-! The addressing modes in numbers, and what the instructions over them write: loads a register, stores and
read-modify-writes one byte; from these O21, O22, O30, O49, O50 and O54. -/

namespace Sys2Proof.Proofs

open Sys2Proof.Machine Sys2Proof.Laws

/-! ### Addresses in numbers -/

/-- A byte is its own address in page 0 (R7, R108). -/
theorem zext16_eq_ofNat {b : Byte} {n : Nat} (h : b.toNat = n) : zext16 b = BitVec.ofNat 16 n := by
  rw [← h, ← zext16_toNat, BitVec.ofNat_toNat, BitVec.setWidth_eq]

theorem add_zext16_toNat (base : Addr) (index : Byte) :
    (base + zext16 index).toNat = (base.toNat + index.toNat) % 65536 := by
  rw [BitVec.toNat_add, zext16_toNat]

/-- Settles O22: adding less than a page moves to another page exactly when the low byte carries. -/
theorem pageCrossIsALowByteCarry : Obligations.PageCrossIsALowByteCarry := by
  intro base index
  have hbase := base.isLt
  have hindex := index.isLt
  rw [pagesDiffer_iff, add_zext16_toNat]
  omega

/-- The pointer in page 0 as a number, and its two reads, low byte first and wrapping in the page (R115, R116). -/
theorem zeroPageWord_toNat {p : Byte} {n : Nat} (h : p.toNat = n) (s : State) :
    (zeroPageWord p s).1.toNat =
        (s.mem.read (BitVec.ofNat 16 n)).toNat + 256 * (s.mem.read (BitVec.ofNat 16 ((n + 1) % 256))).toNat ∧
      (zeroPageWord p s).2 =
        { s with bus := s.bus ++ [.read (BitVec.ofNat 16 n), .read (BitVec.ofNat 16 ((n + 1) % 256))] } := by
  have hnext : (p + 1).toNat = (n + 1) % 256 := by rw [BitVec.toNat_add, h]; rfl
  rw [zeroPageWord_eq, zext16_eq_ofNat h, zext16_eq_ofNat hnext]
  exact ⟨by rw [cat_toNat, Nat.add_comm], rfl⟩

/-- Settles O21: each mode is a sum modulo its width, a page-0 pointer, or a pointer and then a sum. -/
theorem modesGiveTheirAddresses : Obligations.ModesGiveTheirAddresses := by
  intro s z w byteAt zp yBase
  have hzp : (z + s.x).toNat = zp := BitVec.toNat_add z s.x
  obtain ⟨hx, hxReads⟩ := zeroPageWord_toNat hzp s
  obtain ⟨hy, hyReads⟩ := zeroPageWord_toNat (p := z) rfl s
  have hyBase : (zeroPageWord z s).1.toNat = yBase := hy
  refine ⟨⟨zext16_toNat z, rfl, rfl⟩, ⟨(zext16_toNat _).trans hzp, rfl, rfl⟩,
    ⟨(zext16_toNat _).trans (BitVec.toNat_add z s.y), rfl, rfl⟩, ⟨rfl, rfl, rfl⟩,
    ⟨add_zext16_toNat w s.x, pageCrossIsALowByteCarry w s.x, rfl⟩,
    ⟨add_zext16_toNat w s.y, pageCrossIsALowByteCarry w s.y, rfl⟩, ⟨hx, rfl, hxReads⟩, ?_⟩
  rw [← hyBase]
  exact ⟨add_zext16_toNat _ s.y, pageCrossIsALowByteCarry _ s.y, hyReads⟩

/-! ### Loads -/

/-- The register `r` takes the value `v`, and Z and N come from it (R28). -/
def setRegZN (r : Reg) (v : Byte) (s : State) : State :=
  match r with
  | .a => { s with a := v, p := setZN v s.p }
  | .x => { s with x := v, p := setZN v s.p }
  | .y => { s with y := v, p := setZN v s.p }
  | .sp => { s with sp := v, p := setZN v s.p }

@[simp] theorem setRegZN_p (r : Reg) (v : Byte) (s : State) : (setRegZN r v s).p = setZN v s.p := by cases r <;> rfl

@[simp] theorem setRegZN_reg (r q : Reg) (v : Byte) (s : State) :
    (setRegZN r v s).reg q = if q = r then v else s.reg q := by
  cases r <;> cases q <;> rfl

/-- The flags other than Z and N are not touched by setting these two (R28). -/
theorem keepsFlags_of_setZN {v : Byte} {s t : State} (h : t.p = setZN v s.p) : KeepsFlags [.z, .n] s t := by
  intro f hf
  cases f with
  | z | n => simp at hf
  | c | i | d | v => simp [State.flag, h]

theorem setRegZN_writesRegZN (r : Reg) (v : Byte) (s : State) : WritesRegZN r v s (setRegZN r v s) := by
  refine ⟨by simp, zeroNegativeOf_of_setZN (setRegZN_p r v s), by cases r <;> rfl, fun q hq => ?_,
    keepsFlags_of_setZN (setRegZN_p r v s), ?_, ?_⟩
  · rw [setRegZN_reg, if_neg (by simpa using hq)]
  · cases r <;> exact fun _ _ => rfl
  · cases r <;> exact ⟨⟨rfl, rfl, rfl, rfl, rfl⟩, rfl⟩

/-- A read instruction whose own computation writes a register writes it, whatever its accesses and its count (R119). -/
theorem readInstr_writesRegZN {r : Reg} {v : Byte} (op : ReadOperand) (sem : Byte → State → State) (s : State)
    (h : ∀ b, WritesRegZN r v { s with bus := b } (sem (operandValue op s).value { s with bus := b })) :
    ∃ t, readInstr op sem s = .next t ∧ WritesRegZN r v s t :=
  ⟨_, readInstr_eq op sem s, h _⟩

theorem load_writesRegZN (r : Reg) (op : ReadOperand) (s : State) :
    ∃ t, readInstr op (setRegZN r) s = .next t ∧ WritesRegZN r (operandValue op s).value s t :=
  readInstr_writesRegZN op (setRegZN r) s fun b => setRegZN_writesRegZN r _ { s with bus := b }

/-- Settles O49: the three loads are one computation, on A, X and Y. -/
theorem loadsWriteTheirRegister : Obligations.LoadsWriteTheirRegister := by
  intro op s v
  refine ⟨?_, ?_, load_writesRegZN .a op s, load_writesRegZN .x op s, load_writesRegZN .y op s⟩
  · rintro b rfl
    rfl
  · rintro m rfl
    exact operandValue_value (.mem m) s

/-! ### Stores and read-modify-writes -/

/-- The byte at the operand's effective address takes the value `v`; of the flags only those named may change, and nothing
else changes; the resolver's accesses are followed by those given (R120). -/
def WritesByte (flags : List Flag) (m : MemOperand) (v : Byte) (accesses : List BusAccess) (s t : State) : Prop :=
  t.mem.read (resolve m s).addr = v ∧ t.pc = s.pc ∧ Frame [] flags [(resolve m s).addr] s t ∧
    t.bus = (resolve m s).after.bus ++ accesses

/-- One write of memory, with new flags, a bus record and a count. -/
theorem writesByte_of_flags {flags : List Flag} {p : Status} (m : MemOperand) (v : Byte) (accesses : List BusAccess)
    (cycles : Nat) (s : State) (h : KeepsFlags flags s { s with p := p }) :
    WritesByte flags m v accesses s
      { s with
        p := p
        mem := s.mem.write (resolve m s).addr v
        bus := s.bus ++ (pointerReads m s ++ accesses)
        remaining := cycles } := by
  refine ⟨by simp, rfl, ⟨fun r _ => ?_, h, keepsMemory_of_write rfl, ⟨rfl, rfl, rfl, rfl, rfl⟩, rfl⟩, by simp⟩
  cases r <;> rfl

theorem storeInstr_writesByte (m : MemOperand) (v : Byte) (s : State) :
    ∃ t, storeInstr m v s = .next t ∧ WritesByte [] m v [.write (resolve m s).addr v] s t :=
  ⟨_, storeInstr_eq m v s, writesByte_of_flags m v _ _ s (keepsFlags_of_p_eq rfl _)⟩

/-- Settles O50: the three stores are one store, of A, X and Y. -/
theorem storesWriteOneByte : Obligations.StoresWriteOneByte := by
  intro m s addr q hq
  simp only [List.mem_cons, List.not_mem_nil, or_false] at hq
  rcases hq with rfl | rfl | rfl <;> exact storeInstr_writesByte m _ s

theorem modifyInstr_writesByte (f : Byte → Byte) (m : MemOperand) (s : State) :
    let addr := (resolve m s).addr
    let r := f (s.mem.read addr)
    ∃ t, modifyInstr f m s = .next t ∧ WritesByte [.z, .n] m r [.read addr, .write addr r] s t ∧ ZeroNegativeOf r t :=
  ⟨_, modifyInstr_eq f m s, writesByte_of_flags m _ _ _ s (keepsFlags_of_setZN rfl),
    zeroNegativeOf_of_setZN (p := s.p) rfl⟩

/-- Settles O54: both are one read and one write of a computed byte, and the two bytes as numbers are given modulo 256. -/
theorem memoryIncrementsWrap : Obligations.MemoryIncrementsWrap := by
  intro m s addr v q hq
  obtain ⟨f, hexec, hvalue⟩ :
      ∃ f : Byte → Byte, exec q.1 s = modifyInstr f m s ∧ (f (s.mem.read addr)).toNat = q.2 := by
    simp only [List.mem_cons, List.not_mem_nil, or_false] at hq
    rcases hq with rfl | rfl
    · exact ⟨(· + 1), rfl, BitVec.toNat_add _ 1⟩
    · exact ⟨(· - 1), rfl, by rw [BitVec.toNat_sub, Nat.add_comm]; rfl⟩
  obtain ⟨t, ht, ⟨hread, hpc, hframe, hbus⟩, hzn⟩ := modifyInstr_writesByte f m s
  refine ⟨t, hexec.trans ht, by rw [hread, hvalue], ?_, hpc, hframe, ?_⟩ <;> rw [hread]
  · exact hzn
  · exact hbus

/-! ### Shifts and rotates -/

/-- A bit of a byte as a number. -/
theorem getLsbD_toNat (v : Byte) (k : Nat) : (v.getLsbD k).toNat = v.toNat / 2 ^ k % 2 :=
  Nat.toNat_testBit v.toNat k

/-- A shift or rotate answers the result `r` and shifts out the bit `c`, both as numbers. -/
def ShiftsTo (q : ShiftResult) (r c : Nat) : Prop := q.r.toNat = r ∧ q.carry.toNat = c

theorem aslByte_shiftsTo (v : Byte) (c : Bool) : ShiftsTo (aslByte v c) (2 * v.toNat % 256) (v.toNat / 128) := by
  have := v.isLt
  constructor
  · simp [aslByte, Nat.shiftLeft_eq, Nat.mul_comm]
  · rw [aslByte, getLsbD_toNat]; omega

theorem lsrByte_shiftsTo (v : Byte) (c : Bool) : ShiftsTo (lsrByte v c) (v.toNat / 2) (v.toNat % 2) := by
  constructor
  · simp [lsrByte, Nat.shiftRight_eq_div_pow]
  · rw [lsrByte, getLsbD_toNat]; omega

/-- The carry enters the bit that the shift leaves free, so the OR is a sum (R143). -/
theorem rolByte_shiftsTo (v : Byte) (c : Bool) :
    ShiftsTo (rolByte v c) (2 * v.toNat % 256 + c.toNat) (v.toNat / 128) := by
  have := v.isLt
  constructor
  · have hcarry : ((BitVec.ofBool c).setWidth 8).toNat = c.toNat := by cases c <;> rfl
    have hshift : (v <<< 1).toNat = (v.toNat % 128) <<< 1 := by
      rw [BitVec.toNat_shiftLeft, Nat.shiftLeft_eq]; omega
    rw [rolByte, BitVec.toNat_or, hcarry, hshift, ← Nat.shiftLeft_add_eq_or_of_lt c.toNat_lt]
    omega
  · rw [rolByte, getLsbD_toNat]; omega

/-- The carry enters the bit that the shift leaves free, so the OR is a sum (R144). -/
theorem rorByte_shiftsTo (v : Byte) (c : Bool) :
    ShiftsTo (rorByte v c) (v.toNat / 2 + 128 * c.toNat) (v.toNat % 2) := by
  have := v.isLt
  constructor
  · have hcarry : ((BitVec.ofBool c).setWidth 8 <<< 7).toNat = c.toNat <<< 7 := by cases c <;> rfl
    have hshift : (v >>> 1).toNat < 2 ^ 7 := by rw [BitVec.toNat_ushiftRight, Nat.shiftRight_eq_div_pow]; omega
    rw [rorByte, BitVec.toNat_or, hcarry, Nat.or_comm, ← Nat.shiftLeft_add_eq_or_of_lt hshift,
      BitVec.toNat_ushiftRight, Nat.shiftRight_eq_div_pow, Nat.shiftLeft_eq]
    omega
  · rw [rorByte, getLsbD_toNat]; omega

/-- The flags that a shift or rotate does not name stay (R140). -/
theorem keepsFlags_of_shiftFlags {q : ShiftResult} {s t : State} (h : t.p = shiftFlags q s.p) :
    KeepsFlags [.c, .z, .n] s t := by
  intro f hf
  cases f with
  | c | z | n => simp at hf
  | i | d | v => simp [State.flag, h]

theorem shiftInstr_writesByte (f : Byte → Bool → ShiftResult) (m : MemOperand) (s : State) :
    let addr := (resolve m s).addr
    let q := f (s.mem.read addr) s.p.c
    ∃ t, shiftInstr f (.mem m) s = .next t ∧ WritesByte [.c, .z, .n] m q.r [.read addr, .write addr q.r] s t ∧
      t.p.c = q.carry ∧ ZeroNegativeOf q.r t :=
  ⟨_, shiftInstr_mem_eq f m s, writesByte_of_flags m _ _ _ s (keepsFlags_of_shiftFlags rfl), rfl,
    zeroNegativeOf_of_setZN (p := { s.p with c := (f (s.mem.read (resolve m s).addr) s.p.c).carry }) rfl⟩

/-- Settles O30: all four are one read and one write of a computed byte, and the byte and the bit shifted out are those of
the rule as numbers. -/
theorem shiftsOnMemory : Obligations.ShiftsOnMemory := by
  intro m s addr v c q hq
  obtain ⟨f, hexec, hresult, hcarry⟩ :
      ∃ f, exec q.1 s = shiftInstr f (.mem m) s ∧ ShiftsTo (f (s.mem.read addr) s.p.c) q.2.1 q.2.2 := by
    simp only [List.mem_cons, List.not_mem_nil, or_false] at hq
    rcases hq with rfl | rfl | rfl | rfl
    · exact ⟨aslByte, rfl, aslByte_shiftsTo _ _⟩
    · exact ⟨lsrByte, rfl, lsrByte_shiftsTo _ _⟩
    · exact ⟨rolByte, rfl, rolByte_shiftsTo _ _⟩
    · exact ⟨rorByte, rfl, rorByte_shiftsTo _ _⟩
  obtain ⟨t, ht, ⟨hread, hpc, hframe, hbus⟩, hc, hzn⟩ := shiftInstr_writesByte f m s
  refine ⟨t, hexec.trans ht, by rw [hread, hresult], by rw [hc, hcarry], ?_, hpc, hframe, ?_⟩ <;> rw [hread]
  · exact hzn
  · exact hbus

end Sys2Proof.Proofs
end

section
/-! ADC and SBC: the three ways of `arith`, the four adders as numbers, and what writing an adder's answer leaves
unchanged; from these O23 to O28. -/

namespace Sys2Proof.Proofs

open Sys2Proof.Machine Sys2Proof.Laws

/-! ### The three ways of ADC and SBC -/

section
variable {bin dec : Byte → Byte → Bool → AdderResult} {m : Byte} {s : State}

theorem arith_of_binary (hd : s.p.d = false) : arith bin dec m s = writeAdder (bin s.a m s.p.c) s := by
  simp [arith, hd]

theorem arith_of_decimal (hd : s.p.d = true) (ha : IsBcd s.a) (hm : IsBcd m) :
    arith bin dec m s = writeAdder (dec s.a m s.p.c) s := by
  simp [arith, hd, Config.decimalEnable, (validBcd_iff _).2 ha, (validBcd_iff _).2 hm]

theorem arith_of_invalid (hd : s.p.d = true) (h : ¬ (IsBcd s.a ∧ IsBcd m)) : arith bin dec m s = drawAdder s := by
  have hvalid : (validBcd s.a && validBcd m) = false := by
    rwa [← Bool.not_eq_true, Bool.and_eq_true, validBcd_iff, validBcd_iff]
  simp [arith, hd, Config.decimalEnable, hvalid]

end

/-! ### What ADC and SBC leave unchanged -/

/-- All that ADC and SBC keep, whichever way they go: of registers, flags, memory and the controller, everything but A and
the flags C, Z, V and N (R132, R133). -/
def KeepsAllButSum (s t : State) : Prop :=
  t.pc = s.pc ∧ KeepsRegs [.a] s t ∧ KeepsFlags [.c, .z, .v, .n] s t ∧ KeepsMemory [] s t ∧ KeepsController s t

theorem keepsAllButSum_arith (bin dec : Byte → Byte → Bool → AdderResult) (m : Byte) (s : State) :
    KeepsAllButSum s (arith bin dec m s) := by
  rw [arith_frame]
  refine ⟨rfl, fun r hr => ?_, fun f hf => ?_, fun _ _ => rfl, rfl, rfl, rfl, rfl, rfl⟩
  · cases r with
    | a => simp at hr
    | x | y | sp => rfl
  · cases f with
    | c | z | v | n => simp at hf
    | i | d => rfl

/-- `A` and the flags C and V take an adder's answer, Z and N come from `A`, and nothing else changes (R132, R133). -/
def WritesAdder (q : AdderResult) (s t : State) : Prop :=
  t.a = q.r ∧ t.p.c = q.carry ∧ t.p.v = q.v ∧ ZeroNegativeOf t.a t ∧ t.pc = s.pc ∧
    Frame [.a] [.c, .z, .v, .n] [] s t

/-- Where `arith` goes to an adder, ADC and SBC write its answer, whatever their accesses and their count (R119). -/
theorem arithInstr_writesAdder {bin dec : Byte → Byte → Bool → AdderResult} {q : AdderResult} {op : ReadOperand}
    {s : State}
    (h : ∀ b, arith bin dec (operandValue op s).value { s with bus := b } = writeAdder q { s with bus := b }) :
    ∃ t, readInstr op (arith bin dec) s = .next t ∧ WritesAdder q s t := by
  refine ⟨_, readInstr_eq op (arith bin dec) s, ?_⟩
  obtain ⟨hpc, hregs, hflags, hmem, hcontroller⟩ :=
    keepsAllButSum_arith bin dec (operandValue op s).value { s with bus := s.bus ++ operandReads op s }
  rw [h] at *
  exact ⟨rfl, rfl, rfl, zeroNegativeOf_of_setZN rfl, hpc, hregs, hflags, hmem, hcontroller, rfl⟩

theorem arithInstr_of_binary (bin dec : Byte → Byte → Bool → AdderResult) (op : ReadOperand) {s : State}
    (hd : s.p.d = false) :
    ∃ t, readInstr op (arith bin dec) s = .next t ∧
      WritesAdder (bin s.a (operandValue op s).value s.p.c) s t :=
  arithInstr_writesAdder fun b => arith_of_binary (s := { s with bus := b }) hd

theorem arithInstr_of_decimal (bin dec : Byte → Byte → Bool → AdderResult) (op : ReadOperand) {s : State}
    (hd : s.p.d = true) (ha : IsBcd s.a) (hm : IsBcd (operandValue op s).value) :
    ∃ t, readInstr op (arith bin dec) s = .next t ∧
      WritesAdder (dec s.a (operandValue op s).value s.p.c) s t :=
  arithInstr_writesAdder fun b => arith_of_decimal (s := { s with bus := b }) hd ha hm

/-! ### The binary adder as numbers -/

/-- The mask of the source's test leaves bit 7 (R130). -/
theorem and_0x80_ne_zero (v : Byte) : (v &&& 0x80#8 != 0#8) = v.msb := by
  have hbit : v &&& 0x80#8 = if v.getLsbD 7 then 0x80#8 else 0#8 := BitVec.and_twoPow v 7
  rw [hbit, BitVec.msb_eq_getLsbD_last]
  cases v.getLsbD 7 <;> rfl

/-- The source's test says: operands of one sign, and a result of the other (R130). -/
theorem overflowTest_iff (a m r : Byte) : overflowTest a m r = true ↔ a.msb = m.msb ∧ r.msb ≠ a.msb := by
  rw [overflowTest, and_0x80_ne_zero, BitVec.msb_and, BitVec.msb_not, BitVec.msb_xor, BitVec.msb_xor]
  cases a.msb <;> cases m.msb <;> cases r.msb <;> decide

theorem addBinary_toNat (a m : Byte) (c : Bool) :
    (addBinary a m c).r.toNat = (a.toNat + m.toNat + c.toNat) % 256 := BitVec.toNat_ofNat _ 8

/-- Bit 8 of the sum, which is less than 512, is set exactly from 256 on (R130). -/
theorem addBinary_carry_iff (a m : Byte) (c : Bool) :
    (addBinary a m c).carry = true ↔ 256 ≤ a.toNat + m.toNat + c.toNat := by
  have ha := a.isLt
  have hm := m.isLt
  have hc := c.toNat_le
  simp only [addBinary, Nat.testBit_eq_decide_div_mod_eq, decide_eq_true_eq]
  omega

/-- The source's test is the signed overflow (R130). -/
theorem addBinary_v_iff (a m : Byte) (c : Bool) :
    (addBinary a m c).v = true ↔
      a.toInt + m.toInt + c.toNat < -128 ∨ 127 < a.toInt + m.toInt + c.toNat := by
  have ha := a.isLt
  have hm := m.isLt
  have hc := c.toNat_le
  have hr := addBinary_toNat a m c
  have hv : (addBinary a m c).v = overflowTest a m (addBinary a m c).r := rfl
  rw [hv, overflowTest_iff]
  simp only [BitVec.msb_eq_decide, BitVec.toInt_eq_toNat_cond, hr, ne_eq, decide_eq_decide]
  omega

/-- The operand that SBC adds is the complement (R133). -/
theorem xor_ff_eq_not (m : Byte) : m ^^^ 0xFF#8 = ~~~m := BitVec.xor_allOnes

theorem not_toNat (m : Byte) : (~~~m).toNat = 255 - m.toNat := BitVec.toNat_not

theorem not_toInt (m : Byte) : (~~~m).toInt = -m.toInt - 1 := by
  have := m.isLt
  simp only [BitVec.toInt_eq_toNat_cond, not_toNat]
  omega

theorem subBinary_eq (a m : Byte) (c : Bool) : subBinary a m c = addBinary a (~~~m) c := by
  rw [subBinary, xor_ff_eq_not]

/-! ### The statements with D clear -/

/-- Settles O23: ADC writes the binary adder's answer, whose parts are these as numbers. -/
theorem adcBinary : Obligations.AdcBinary := by
  intro op s hd m n k
  obtain ⟨t, ht, hr, hc, hv, hrest⟩ := arithInstr_of_binary addBinary addDecimal op hd
  refine ⟨t, ht, ?_, ?_, ?_, hrest⟩
  · rw [hr]; exact addBinary_toNat s.a m s.p.c
  · rw [hc]; exact addBinary_carry_iff s.a m s.p.c
  · rw [hv]; exact addBinary_v_iff s.a m s.p.c

/-- Settles O24: adding the complement and C is subtracting `M` and the borrow, but for the 256 that is the carry. -/
theorem sbcBinary : Obligations.SbcBinary := by
  intro op s hd m n k
  obtain ⟨t, ht, hr, hc, hv, hrest⟩ : ∃ t, exec (.sbc op) s = .next t ∧ WritesAdder (subBinary s.a m s.p.c) s t :=
    arithInstr_of_binary subBinary subDecimal op hd
  rw [subBinary_eq] at hr hc hv
  have hm := m.isLt
  refine ⟨t, ht, ?_, ?_, ?_, hrest⟩
  · rw [hr, addBinary_toNat, not_toNat]; omega
  · rw [hc, addBinary_carry_iff, not_toNat]; omega
  · rw [hv, addBinary_v_iff, not_toInt]; omega

/-! ### Valid BCD -/

/-- `bcd` answers valid BCD of the number itself (R131). -/
theorem bcdOf_of_lt {n : Nat} (h : n < 100) : IsBcd (bcdOf n) ∧ bcdValue (bcdOf n) = n := by
  have hbyte : (bcdOf n).toNat = 16 * (n / 10) + n % 10 :=
    (BitVec.toNat_ofNat _ 8).trans (Nat.mod_eq_of_lt (by omega))
  unfold IsBcd bcdValue
  omega

/-- A remainder modulo 100 is not negative also where the difference is, so `bcd` has it (R131). -/
theorem bcdOf_of_emod (n : Int) :
    IsBcd (bcdOf (n % 100).toNat) ∧ (bcdValue (bcdOf (n % 100).toNat) : Int) = n % 100 := by
  obtain ⟨hbcd, hvalue⟩ := bcdOf_of_lt (n := (n % 100).toNat) (by omega)
  exact ⟨hbcd, by omega⟩

theorem bcdValue_lt {b : Byte} (h : IsBcd b) : bcdValue b < 100 := by
  unfold IsBcd at h
  unfold bcdValue
  omega

/-- Two decimal digits are fixed by the number they stand for (R131). -/
theorem bcdValue_inj {a b : Byte} (ha : IsBcd a) (hb : IsBcd b) (h : bcdValue a = bcdValue b) : a = b := by
  unfold IsBcd at ha hb
  unfold bcdValue at h
  exact BitVec.eq_of_toNat_eq (by omega)

/-! ### The decimal adder and subtracter as numbers -/

theorem addDecimal_bcd (a m : Byte) (c : Bool) :
    IsBcd (addDecimal a m c).r ∧ bcdValue (addDecimal a m c).r = (bcdValue a + bcdValue m + c.toNat) % 100 :=
  bcdOf_of_lt (Nat.mod_lt _ (by omega))

theorem addDecimal_carry_iff (a m : Byte) (c : Bool) :
    (addDecimal a m c).carry = true ↔ 100 ≤ bcdValue a + bcdValue m + c.toNat := decide_eq_true_iff

theorem addDecimal_v_iff (a m : Byte) (c : Bool) :
    (addDecimal a m c).v = true ↔ a.msb = m.msb ∧ (addDecimal a m c).r.msb ≠ a.msb := overflowTest_iff _ _ _

theorem subDecimal_bcd (a m : Byte) (c : Bool) :
    IsBcd (subDecimal a m c).r ∧
      (bcdValue (subDecimal a m c).r : Int) = ((bcdValue a : Int) - bcdValue m - (1 - c.toNat)) % 100 :=
  bcdOf_of_emod _

theorem subDecimal_carry_iff (a m : Byte) (c : Bool) :
    (subDecimal a m c).carry = true ↔ 0 ≤ (bcdValue a : Int) - bcdValue m - (1 - c.toNat) := decide_eq_true_iff

/-- With the operand complemented the source's test says: operands of two signs, and a result without that of `A` (R131). -/
theorem subDecimal_v_iff (a m : Byte) (c : Bool) :
    (subDecimal a m c).v = true ↔ a.msb ≠ m.msb ∧ (subDecimal a m c).r.msb ≠ a.msb := by
  have hv : (subDecimal a m c).v = overflowTest a (m ^^^ 0xFF#8) (subDecimal a m c).r := rfl
  rw [hv, overflowTest_iff, xor_ff_eq_not, BitVec.msb_not]
  simp [Bool.eq_not]

/-! ### The statements with D set -/

/-- Settles O25: ADC writes the decimal adder's answer, `bcd` of the sum modulo 100. -/
theorem adcDecimal : Obligations.AdcDecimal := by
  intro op s hd ha hm m n
  obtain ⟨t, ht, hr, hc, hv, hrest⟩ := arithInstr_of_decimal addBinary addDecimal op hd ha hm
  obtain ⟨hbcd, hvalue⟩ := addDecimal_bcd s.a m s.p.c
  rw [← hr] at hbcd hvalue
  refine ⟨t, ht, hbcd, hvalue, ?_, ?_, hrest⟩
  · rw [hc]; exact addDecimal_carry_iff s.a m s.p.c
  · rw [hv, hr]; exact addDecimal_v_iff s.a m s.p.c

/-- Settles O26: SBC writes the decimal subtracter's answer, `bcd` of the difference modulo 100. -/
theorem sbcDecimal : Obligations.SbcDecimal := by
  intro op s hd ha hm m n
  obtain ⟨t, ht, hr, hc, hv, hrest⟩ := arithInstr_of_decimal subBinary subDecimal op hd ha hm
  obtain ⟨hbcd, hvalue⟩ := subDecimal_bcd s.a m s.p.c
  rw [← hr] at hbcd hvalue
  refine ⟨t, ht, hbcd, hvalue, ?_, ?_, hrest⟩
  · rw [hc]; exact subDecimal_carry_iff s.a m s.p.c
  · rw [hv, hr]; exact subDecimal_v_iff s.a m s.p.c

/-- Settles O27: `arith` draws, which writes A and four flags only; the accesses and the count are those of reading the
operand. -/
theorem invalidBcdDrawsFreeValues : Obligations.InvalidBcdDrawsFreeValues := by
  intro op s hd hinvalid i hi
  obtain ⟨bin, dec, hexec⟩ : ∃ bin dec, exec i s = readInstr op (arith bin dec) s := by
    simp only [List.mem_cons, List.not_mem_nil, or_false] at hi
    rcases hi with rfl | rfl
    · exact ⟨addBinary, addDecimal, rfl⟩
    · exact ⟨subBinary, subDecimal, rfl⟩
  have hkeeps := keepsAllButSum_arith bin dec (operandValue op s).value { s with bus := s.bus ++ operandReads op s }
  refine ⟨_, hexec.trans (readInstr_eq op _ s), ?_⟩
  rw [arith_of_invalid (s := { s with bus := s.bus ++ operandReads op s }) hd hinvalid] at hkeeps ⊢
  obtain ⟨hpc, hregs, hflags, hmem, hcontroller⟩ := hkeeps
  exact ⟨rfl, rfl, rfl, rfl, rfl, rfl, hpc, hregs, hflags, hmem, hcontroller, rfl, by rw [operandValue_after]; rfl⟩

/-! ### The round trip -/

/-- Settles O28: modulo 256, and on valid BCD modulo 100, the difference takes away what the sum added, and D is kept in
between. -/
theorem sbcUndoesAdc : Obligations.SbcUndoesAdc := by
  intro s t m hc hbcd hadc
  cases hd : s.p.d with
  | false =>
    obtain ⟨t', ht', hsum, -, -, -, -, -, hflags, -⟩ := adcBinary (.imm m) s hd
    obtain rfl : t = t' := by simpa [hadc] using ht'
    obtain ⟨u, hu, hdiff, -⟩ :=
      sbcBinary (.imm m) { t with p := { t.p with c := true } } ((hflags .d (by simp)).trans hd)
    refine ⟨u, hu, BitVec.eq_of_toNat_eq ?_⟩
    have ha := s.a.isLt
    simp only [hc, operandValue_value, Bool.toNat_true, Bool.toNat_false] at hsum hdiff
    omega
  | true =>
    obtain ⟨ha, hm⟩ := hbcd hd
    obtain ⟨t', ht', hbcd', hsum, -, -, -, -, -, hflags, -⟩ := adcDecimal (.imm m) s hd ha hm
    obtain rfl : t = t' := by simpa [hadc] using ht'
    obtain ⟨u, hu, hubcd, hdiff, -⟩ :=
      sbcDecimal (.imm m) { t with p := { t.p with c := true } } ((hflags .d (by simp)).trans hd) hbcd' hm
    refine ⟨u, hu, bcdValue_inj hubcd ha ?_⟩
    have hlt := bcdValue_lt ha
    simp only [hc, operandValue_value, Bool.toNat_true, Bool.toNat_false] at hsum hdiff
    omega

end Sys2Proof.Proofs
end

section
/-! The shifts and rotates on A, and ROL as a rotation of the nine-bit quantity of C and A; from these O29 and O31. -/

namespace Sys2Proof.Proofs

open Sys2Proof.Machine Sys2Proof.Laws

/-! ### Shifts and rotates on A -/

/-- A and the flag C take the answer of a shift or rotate, Z and N come from A, and nothing else changes; it costs two
cycles and no bus access (R140). -/
def WritesShiftToA (q : ShiftResult) (s t : State) : Prop :=
  t.a = q.r ∧ t.p.c = q.carry ∧ ZeroNegativeOf t.a t ∧ t.pc = s.pc ∧ Frame [.a] [.c, .z, .n] [] s t ∧ Spends 2 [] s t

theorem keepsRegs_a {s t : State} (hx : t.x = s.x) (hy : t.y = s.y) (hsp : t.sp = s.sp) : KeepsRegs [.a] s t := by
  intro r hr
  cases r with
  | a => simp at hr
  | x => exact hx
  | y => exact hy
  | sp => exact hsp

theorem shiftInstr_acc_writesShiftToA (f : Byte → Bool → ShiftResult) (s : State) :
    ∃ t, shiftInstr f .acc s = .next t ∧ WritesShiftToA (f s.a s.p.c) s t :=
  ⟨_, shiftInstr_acc_eq f s, rfl, rfl, zeroNegativeOf_of_setZN (p := { s.p with c := (f s.a s.p.c).carry }) rfl, rfl,
    ⟨keepsRegs_a rfl rfl rfl, keepsFlags_of_shiftFlags rfl, fun _ _ => rfl, ⟨rfl, rfl, rfl, rfl, rfl⟩, rfl⟩,
    rfl, (List.append_nil _).symm⟩

/-- Settles O29: all four write a computed byte to A, and the byte and the bit shifted out are those of the rule as
numbers. -/
theorem shiftsOnA : Obligations.ShiftsOnA := by
  intro s v c q hq
  obtain ⟨f, hexec, hresult, hcarry⟩ :
      ∃ f, exec q.1 s = shiftInstr f .acc s ∧ ShiftsTo (f s.a s.p.c) q.2.1 q.2.2 := by
    simp only [List.mem_cons, List.not_mem_nil, or_false] at hq
    rcases hq with rfl | rfl | rfl | rfl
    · exact ⟨aslByte, rfl, aslByte_shiftsTo _ _⟩
    · exact ⟨lsrByte, rfl, lsrByte_shiftsTo _ _⟩
    · exact ⟨rolByte, rfl, rolByte_shiftsTo _ _⟩
    · exact ⟨rorByte, rfl, rorByte_shiftsTo _ _⟩
  obtain ⟨t, ht, ha, hc, hrest⟩ := shiftInstr_acc_writesShiftToA f s
  exact ⟨t, hexec.trans ht, by rw [ha, hresult], by rw [hc, hcarry], hrest⟩

/-! ### Nine rotations of nine bits -/

/-- The nine-bit quantity that ROL of A rotates: C, then the bits of A (R143). -/
def carryA (s : State) : BitVec 9 := BitVec.cons s.p.c s.a

/-- The bit shifted out becomes C and the old C becomes bit 0: the nine bits move up by one, around the end (R143). -/
theorem cons_rolByte_eq_rotateLeft (v : Byte) (c : Bool) :
    BitVec.cons (rolByte v c).carry (rolByte v c).r = (BitVec.cons c v).rotateLeft 1 := by
  apply BitVec.eq_of_getMsbD_eq
  intro i hi
  -- The first bit of the result is C; of the others the last is the old C, and each of the rest its neighbour's.
  cases i with
  | zero =>
    have hcarry : v.getLsbD 7 = v.getMsbD 0 := by simp [BitVec.getMsbD]
    simpa [rolByte, BitVec.getMsbD_rotateLeft] using hcarry
  | succ j =>
    obtain rfl | hj : j = 7 ∨ j < 7 := by omega
    · simp [rolByte, BitVec.getMsbD_rotateLeft]
    · have hindex : (1 + (j + 1)) % 9 = j + 1 + 1 := by omega
      have hbit : j + 1 < 9 := hi
      simp [rolByte, BitVec.getMsbD_rotateLeft, hindex, hj.not_ge, hbit]

theorem rotateLeft_rotateLeft {w : Nat} (x : BitVec w) (m n : Nat) :
    (x.rotateLeft m).rotateLeft n = x.rotateLeft (m + n) := by
  apply BitVec.eq_of_getMsbD_eq
  intro i hi
  have hlt : (n + i) % w < w := Nat.mod_lt _ (by omega)
  simp [BitVec.getMsbD_rotateLeft, hi, hlt, Nat.add_assoc]

/-- Whole turns change nothing. -/
theorem rotateLeft_of_dvd {w n : Nat} (x : BitVec w) (h : w ∣ n) : x.rotateLeft n = x := by
  apply BitVec.eq_of_getMsbD_eq
  intro i hi
  have hindex : (n + i) % w = i := by rw [Nat.add_mod, Nat.mod_eq_zero_of_dvd h]; simp [Nat.mod_eq_of_lt hi]
  simp [BitVec.getMsbD_rotateLeft, hi, hindex]

theorem execTimes_succ_of_next {i : Instr} {s t : State} (h : exec i s = .next t) (n : Nat) :
    execTimes (n + 1) i s = execTimes n i t := by
  rw [execTimes, h]

theorem exec_rol_acc_rotates (s : State) :
    ∃ t, exec (.rol .acc) s = .next t ∧ carryA t = (carryA s).rotateLeft 1 := by
  obtain ⟨t, ht, ha, hc, -⟩ := shiftInstr_acc_writesShiftToA rolByte s
  refine ⟨t, ht, ?_⟩
  rw [carryA, ha, hc]
  exact cons_rolByte_eq_rotateLeft s.a s.p.c

theorem execTimes_rol_acc_rotates (n : Nat) (s : State) :
    ∃ u, execTimes n (.rol .acc) s = .next u ∧ carryA u = (carryA s).rotateLeft n := by
  induction n generalizing s with
  | zero => exact ⟨s, rfl, (rotateLeft_of_dvd _ (Nat.dvd_zero 9)).symm⟩
  | succ n ih =>
    obtain ⟨t, ht, hone⟩ := exec_rol_acc_rotates s
    obtain ⟨u, hu, hrest⟩ := ih t
    refine ⟨u, (execTimes_succ_of_next ht n).trans hu, ?_⟩
    rw [hrest, hone, rotateLeft_rotateLeft, Nat.add_comm]

/-- The nine bits fix A and C. -/
theorem a_and_c_eq_of_carryA_eq {s t : State} (h : carryA t = carryA s) : t.a = s.a ∧ t.p.c = s.p.c := by
  have ha := congrArg (BitVec.setWidth 8) h
  have hc := congrArg BitVec.msb h
  simp only [carryA, BitVec.setWidth_cons, BitVec.msb_cons] at ha hc
  exact ⟨ha, hc⟩

/-- Settles O31: the nine bits of C and A, rotated by nine, are what they were. -/
theorem nineRolsRestoreCarryAndA : Obligations.NineRolsRestoreCarryAndA := by
  intro s
  obtain ⟨u, hu, hrotates⟩ := execTimes_rol_acc_rotates 9 s
  exact ⟨u, hu, a_and_c_eq_of_carryA_eq (hrotates.trans (rotateLeft_of_dvd _ (dvd_refl 9)))⟩

end Sys2Proof.Proofs
end

section
/-! The compares of A, X and Y as one computation, and its three flags as numbers; from these O32. -/

namespace Sys2Proof.Proofs

open Sys2Proof.Machine Sys2Proof.Laws

/-! ### The three flags as numbers -/

theorem compareFlags_c_iff (r m : Byte) (p : Status) : (compareFlags r m p).c = true ↔ m.toNat ≤ r.toNat := by
  rw [compareFlags_c, decide_eq_true_eq]

theorem compareFlags_z_iff (r m : Byte) (p : Status) : (compareFlags r m p).z = true ↔ r.toNat = m.toNat := by
  rw [compareFlags_z, beq_iff_eq, BitVec.toNat_inj]

/-- The 8-bit difference is the one modulo 256, whose bit 7 is set from 128 on (R150). -/
theorem compareFlags_n_iff (r m : Byte) (p : Status) :
    (compareFlags r m p).n = true ↔ 128 ≤ (r.toNat + 256 - m.toNat) % 256 := by
  have hm := m.isLt
  rw [compareFlags_n, ← BitVec.msb_eq_getLsbD_last, BitVec.msb_eq_decide, decide_eq_true_eq, BitVec.toNat_sub]
  omega

/-- The flags that a compare does not name stay (R150). -/
theorem keepsFlags_of_compareFlags {r m : Byte} {s t : State} (h : t.p = compareFlags r m s.p) :
    KeepsFlags [.c, .z, .n] s t := by
  intro f hf
  cases f with
  | c | z | n => simp at hf
  | i | d | v => simp [State.flag, h]

/-! ### CMP, CPX and CPY -/

/-- The flags C, Z and N come from comparing the register `r` with the byte `m` (R150). -/
def compareReg (r : Reg) (m : Byte) (s : State) : State := { s with p := compareFlags (s.reg r) m s.p }

/-- A compare reads its operand and writes its three flags, and nothing else changes (R119, R150). -/
theorem readInstr_compareReg (r : Reg) (op : ReadOperand) (s : State) :
    ∃ t, readInstr op (compareReg r) s = .next t ∧ t.p = compareFlags (s.reg r) (operandValue op s).value s.p ∧
      t.pc = s.pc ∧ Frame [] [.c, .z, .n] [] s t := by
  have hp : (compareReg r (operandValue op s).value { s with bus := s.bus ++ operandReads op s }).p =
      compareFlags (s.reg r) (operandValue op s).value s.p := by cases r <;> rfl
  refine ⟨_, readInstr_eq op (compareReg r) s, hp, rfl,
    ⟨fun q _ => ?_, keepsFlags_of_compareFlags hp, fun _ _ => rfl, ⟨rfl, rfl, rfl, rfl, rfl⟩, rfl⟩⟩
  cases q <;> rfl

/-- Settles O32: the three compares are one computation, on A, X and Y, and its flags are those of the rule as numbers. -/
theorem comparesSetThreeFlags : Obligations.ComparesSetThreeFlags := by
  intro op s m q hq
  obtain ⟨r, hexec, hvalue⟩ : ∃ r, exec q.1 s = readInstr op (compareReg r) s ∧ (s.reg r).toNat = q.2 := by
    simp only [List.mem_cons, List.not_mem_nil, or_false] at hq
    rcases hq with rfl | rfl | rfl
    · exact ⟨.a, rfl, rfl⟩
    · exact ⟨.x, rfl, rfl⟩
    · exact ⟨.y, rfl, rfl⟩
  obtain ⟨t, ht, hp, hpc, hframe⟩ := readInstr_compareReg r op s
  rw [← hvalue]
  refine ⟨t, hexec.trans ht, ?_, ?_, ?_, hpc, hframe⟩ <;> rw [hp]
  · exact compareFlags_c_iff _ _ _
  · exact compareFlags_z_iff _ _ _
  · exact compareFlags_n_iff _ _ _

end Sys2Proof.Proofs
end

section
/-! The eight branches as one computation over a condition and a displacement: where it goes, in how many cycles, and that it
touches nothing else; from these O35. -/

namespace Sys2Proof.Proofs

open Sys2Proof.Machine Sys2Proof.Laws

/-- The target's address is the signed sum modulo 65536, backwards past 0 as well (R160). -/
theorem add_sext16_toNat (a : Addr) (d : Byte) :
    ((a + sext16 d).toNat : Int) = (a.toNat + d.toInt) % 65536 := by
  have hd : ((sext16 d).toNat : Int) % 65536 = d.toInt % 65536 := by
    rw [← sext16_toInt, BitVec.toInt_eq_toNat_bmod]
    exact Int.bmod_emod.symm
  have := BitVec.toNat_add a (sext16 d)
  omega

/-- The count as the rule words it: 4 cycles exactly when the target's page is another one (R12, R160). -/
theorem ite_pagesDiffer_eq (a b : Addr) :
    (if pagesDiffer a b then 4 else 3) = if a.toNat / 256 = b.toNat / 256 then 3 else 4 := by
  simp only [pagesDiffer_iff, ne_eq, ite_not]

theorem frame_refl (s : State) : Frame [] [] [] s s :=
  ⟨fun _ _ => rfl, fun _ _ => rfl, fun _ _ => rfl, ⟨rfl, rfl, rfl, rfl, rfl⟩, rfl⟩

/-- Not taken or taken, a branch writes `PC` and its own count only, of which a frame does not speak (R160). -/
theorem branch_frame_pc_spends (cond : Bool) (d : Byte) (s : State) :
    ∃ t, branch cond d s = .next t ∧ Frame [] [] [] s t ∧
      (cond = false → t.pc = s.pc ∧ Spends 2 [] s t) ∧
      (cond = true → (t.pc.toNat : Int) = (s.pc.toNat + d.toInt) % 65536 ∧
        Spends (if t.pc.toNat / 256 = s.pc.toNat / 256 then 3 else 4) [] s t) := by
  have hbus : s.bus = s.bus ++ [] := (List.append_nil _).symm
  cases cond with
  | false => exact ⟨_, branch_untaken_eq d s, frame_refl s, fun _ => ⟨rfl, rfl, hbus⟩, nofun⟩
  | true =>
    exact ⟨_, branch_taken_eq d s, frame_refl s, nofun,
      fun _ => ⟨add_sext16_toNat s.pc d, ite_pagesDiffer_eq _ _, hbus⟩⟩

/-- Settles O35: each of the eight is `branch` on the flag its row names. -/
theorem branchesTestTheirFlag : Obligations.BranchesTestTheirFlag := by
  intro d s q hq
  obtain ⟨hencode, hexec⟩ : encode q.1 = [q.2.1, d] ∧ exec q.1 s = branch q.2.2 d s := by
    simp only [List.mem_cons, List.not_mem_nil, or_false] at hq
    rcases hq with rfl | rfl | rfl | rfl | rfl | rfl | rfl | rfl <;> exact ⟨rfl, rfl⟩
  rw [hexec]
  exact ⟨hencode, branch_frame_pc_spends q.2.2 d s⟩

end Sys2Proof.Proofs
end

section
/-! The pushes and pulls of one byte (R170 to R173), a subroutine's return (R174, R175), and an interrupt's entry and return
(R176, R177, R304); from these O20, O40, O41, O44, O45 and O47. -/

namespace Sys2Proof.Proofs

open Sys2Proof.Machine Sys2Proof.Laws

/-! ### PHA, PHP, PLA and PLP -/

/-- Settles O40: both are `push` with the count 3, of the byte that its row names. -/
theorem pushesWriteOneStackByte : Obligations.PushesWriteOneStackByte := by
  intro s q hq
  obtain ⟨hencode, hexec⟩ : encode q.1 = [q.2.1] ∧ exec q.1 s = finish 3 (push q.2.2 s) := by
    simp only [List.mem_cons, List.not_mem_nil, or_false] at hq
    rcases hq with rfl | rfl <;> exact ⟨rfl, rfl⟩
  exact ⟨hencode, _, hexec, by simp, rfl, rfl, push_frame q.2.2 s, rfl, rfl⟩

/-- A frame that names all six flags asks nothing of the status. -/
theorem keepsFlags_all (s t : State) : KeepsFlags [.c, .z, .i, .d, .v, .n] s t := by
  intro f hf
  cases f <;> simp at hf

/-- PLA changes `A`, `S`, Z and N only (R172). -/
theorem execPla_frame (s : State) :
    Frame [.a, .sp] [.z, .n] [] s (charge 4 { (pull s).2 with a := (pull s).1, p := setZN (pull s).1 s.p }) := by
  refine ⟨fun r hr => ?_, keepsFlags_of_setZN rfl, fun _ _ => rfl, ⟨rfl, rfl, rfl, rfl, rfl⟩, rfl⟩
  cases r with
  | a | sp => simp at hr
  | x | y => rfl

/-- Settles O41: both are `pull` with the count 4, and a load of `A` with its flags or of all six flags. -/
theorem pullsReadOneStackByte : Obligations.PullsReadOneStackByte := by
  intro s v
  refine ⟨⟨rfl, _, execPla_eq s, rfl, zeroNegativeOf_of_setZN rfl, rfl, rfl, execPla_frame s, rfl, rfl⟩,
    ⟨rfl, _, execPlp_eq s, rfl, rfl, rfl, ?_, rfl, rfl⟩⟩
  exact ⟨keepsRegs_sp rfl rfl rfl, keepsFlags_all _ _, fun _ _ => rfl, ⟨rfl, rfl, rfl, rfl, rfl⟩, rfl⟩

/-! ### RTS after JSR -/

/-- The 16-bit pull reads both bytes of the 16-bit push where that put them (R51, R59): it needs only the memory and `S`
that the push left. -/
theorem pull16_of_push16 {w : Addr} {s t : State} (hmem : t.mem = (push16 w s).mem) (hsp : t.sp = (push16 w s).sp) :
    (pull16 t).1 = w ∧ (pull16 t).2.sp = s.sp := by
  have hne : s.sp ≠ s.sp - 1#8 := by bv_omega
  simp [pull16_eq, hmem, hsp, push16_eq, stackAddr_inj, hne]

/-- Settles O47: RTS pulls the address that JSR pushed, `PC` - 1, and adds the 1 again. -/
theorem rtsAfterJsrReturns : Obligations.RtsAfterJsrReturns := by
  intro s t target ht
  rw [execJsr_eq] at ht
  cases ht
  obtain ⟨hret, hsp⟩ := pull16_of_push16 (w := s.pc - 1) (s := s)
    (t := charge 6 { push16 (s.pc - 1) s with pc := target }) (by simp) (by simp)
  refine ⟨_, execRts_eq _, ?_, hsp⟩
  change (pull16 _).1 + 1 = s.pc
  rw [hret, BitVec.sub_add_cancel]

/-! ### Entering an interrupt -/

/-- The pushes of an entry change `S` and three bytes only (R59, R304). -/
theorem push_push16_frame (w : Addr) (v : Byte) (s : State) :
    Frame [.sp] [] [stackAddr s.sp, stackAddr (s.sp - 1), stackAddr (s.sp - 2)] s (push v (push16 w s)) :=
  push16_sp w s ▸ frame_trans (push16_frame w s) (push_frame v (push16 w s))

theorem push_push16_sp (w : Addr) (v : Byte) (s : State) : (push v (push16 w s)).sp = s.sp - 3 := by
  rw [push_sp, push16_sp]
  exact BitVec.sub_sub _ 2 1

/-- The three pushed bytes stand at three different addresses (R57, R59). -/
theorem push_push16_read (w : Addr) (v : Byte) (s : State) :
    (push v (push16 w s)).mem.read (stackAddr s.sp) = hiByte w ∧
      (push v (push16 w s)).mem.read (stackAddr (s.sp - 1)) = loByte w ∧
      (push v (push16 w s)).mem.read (stackAddr (s.sp - 2)) = v := by
  have hhigh : s.sp ≠ s.sp - 2 := by bv_omega
  have hlow : s.sp - 1 ≠ s.sp - 2 := by bv_omega
  simp only [push_mem, push16_sp, Memory.read_write, stackAddr_inj, if_neg hhigh, if_neg hlow, if_true]
  exact ⟨push16_read_high w s, push16_read_low w s, trivial⟩

/-- An entry is its pushes, then I set and a jump to the word that the vector then holds, whichever vector it is (R304). -/
theorem enterInterrupt_eq_pushes (vector : Addr) (b : Bool) (s : State) :
    enterInterrupt vector b s =
      { push (pushedP b s.p) (push16 s.pc s) with
        p := { s.p with i := true }
        pc := (read16 vector (push (pushedP b s.p) (push16 s.pc s))).1
        bus := s.bus ++ entryAccesses vector b s } := by
  have htwo : s.sp - 1#8 - 1#8 = s.sp - 2#8 := BitVec.sub_sub _ 1 1
  simp [enterInterrupt, read16_eq, push16_eq, push, memWrite, entryAccesses, htwo]

/-- Setting I and jumping adds only I to what a frame names. -/
theorem frame_setInterrupt {regs : List Reg} {stored : List Addr} {s t : State} (h : Frame regs [] stored s t)
    (target : Addr) (accesses : List BusAccess) :
    Frame regs [.i] stored s { t with p := { s.p with i := true }, pc := target, bus := accesses } := by
  obtain ⟨hregs, -, hmem, hcontrol⟩ := h
  refine ⟨hregs, fun f hf => ?_, hmem, hcontrol⟩
  cases f with
  | i => simp at hf
  | c | z | d | v | n => rfl

/-- An entry changes `S`, I and the three pushed bytes only, besides `PC` (R304). -/
theorem enterInterrupt_frame (vector : Addr) (b : Bool) (s : State) :
    Frame [.sp] [.i] [stackAddr s.sp, stackAddr (s.sp - 1), stackAddr (s.sp - 2)] s (enterInterrupt vector b s) := by
  rw [enterInterrupt_eq_pushes]
  exact frame_setInterrupt (push_push16_frame s.pc (pushedP b s.p) s) _ _

/-- The three bytes that an entry leaves on the stack, and `S` (R304). -/
theorem enterInterrupt_pushed (vector : Addr) (b : Bool) (s : State) :
    (enterInterrupt vector b s).mem.read (stackAddr s.sp) = hiByte s.pc ∧
      (enterInterrupt vector b s).mem.read (stackAddr (s.sp - 1)) = loByte s.pc ∧
      (enterInterrupt vector b s).mem.read (stackAddr (s.sp - 2)) = pushedP b s.p ∧
      (enterInterrupt vector b s).sp = s.sp - 3 := by
  obtain ⟨hhigh, hlow, hstatus⟩ := push_push16_read s.pc (pushedP b s.p) s
  rw [enterInterrupt_eq_pushes]
  exact ⟨hhigh, hlow, hstatus, push_push16_sp s.pc (pushedP b s.p) s⟩

/-- An entry through a vector above the stack page, which its pushes do not overwrite (R304). -/
theorem enterInterrupt_enteredThrough (vector : Addr) (b : Bool) (s : State) (h : 512 ≤ vector.toNat)
    (h' : 512 ≤ (vector + 1).toNat) : EnteredThrough vector b s (enterInterrupt vector b s) := by
  obtain ⟨hregs, hflags, hmem, -⟩ := enterInterrupt_frame vector b s
  obtain ⟨hhigh, hlow, hstatus, hsp⟩ := enterInterrupt_pushed vector b s
  have hi := congrArg (·.p.i) (enterInterrupt_eq vector b s h h')
  have hpc := congrArg (·.pc) (enterInterrupt_eq vector b s h h')
  exact ⟨hhigh, hlow, hstatus, hsp, hi, hpc, hregs, hflags, hmem⟩

/-- Its bus accesses: three pushes, then the two bytes of the vector (R120, R304). -/
theorem enterInterrupt_bus (vector : Addr) (b : Bool) (s : State) :
    (enterInterrupt vector b s).bus = s.bus ++ entryAccesses vector b s := by
  rw [enterInterrupt_eq_pushes]

theorem execBrk_eq (s : State) :
    exec .brk s = .next (charge 7 (enterInterrupt 0xFFFE#16 true { s with pc := s.pc + 1 })) := rfl

/-- Settles O44: BRK is an entry with `PC` past the signature byte, with the count 7. -/
theorem brkEntersThroughTheIrqVector : Obligations.BrkEntersThroughTheIrqVector := by
  intro s
  have hentered := enterInterrupt_enteredThrough 0xFFFE#16 true { s with pc := s.pc + 1 } (by decide) (by decide)
  obtain ⟨-, -, -, hcontrol⟩ := enterInterrupt_frame 0xFFFE#16 true { s with pc := s.pc + 1 }
  have hbus := enterInterrupt_bus 0xFFFE#16 true { s with pc := s.pc + 1 }
  rw [execBrk_eq]
  generalize enterInterrupt 0xFFFE#16 true { s with pc := s.pc + 1 } = t at hentered hcontrol hbus ⊢
  exact ⟨rfl, _, rfl, hentered, hcontrol, rfl, hbus⟩

/-! ### Returning from an interrupt -/

/-- RTI with its three addresses as offsets from `S` (R177). -/
theorem execRti_eq (s : State) :
    exec .rti s = .next
      { s with
        sp := s.sp + 3
        p := loadP (s.mem.read (stackAddr (s.sp + 1)))
        pc := cat (s.mem.read (stackAddr (s.sp + 3))) (s.mem.read (stackAddr (s.sp + 2)))
        remaining := 6
        bus := s.bus ++
          [.read (stackAddr (s.sp + 1)), .read (stackAddr (s.sp + 2)), .read (stackAddr (s.sp + 3))] } := by
  have htwo : s.sp + 1 + 1 = s.sp + 2 := BitVec.add_assoc _ 1 1
  have hthree : s.sp + 2 + 1 = s.sp + 3 := BitVec.add_assoc _ 2 1
  have hreturn := returnFromInterrupt_eq s
  rw [htwo, hthree] at hreturn
  exact congrArg (finish 6) hreturn

/-- Settles O45: RTI pulls the status and then a 16-bit `PC`, with the count 6. -/
theorem rtiRestoresStatusAndPc : Obligations.RtiRestoresStatusAndPc := by
  intro s v lo hi
  have hpc := (cat_toNat (s.mem.read (stackAddr (s.sp + 3))) (s.mem.read (stackAddr (s.sp + 2)))).trans
    (Nat.add_comm _ _)
  refine ⟨rfl, _, execRti_eq s, hpc, rfl, rfl, ?_, rfl, rfl⟩
  exact ⟨keepsRegs_sp rfl rfl rfl, keepsFlags_all _ _, fun _ _ => rfl, ⟨rfl, rfl, rfl, rfl, rfl⟩, rfl⟩

/-- Settles O20: RTI pulls the three bytes in the opposite order to that in which the entry pushed them. -/
theorem returnUndoesInterruptEntry : Obligations.ReturnUndoesInterruptEntry := by
  intro s vector b
  obtain ⟨hhigh, hlow, hstatus, hsp⟩ := enterInterrupt_pushed vector b s
  obtain ⟨hregs, -, hmem, -⟩ := enterInterrupt_frame vector b s
  generalize enterInterrupt vector b s = t at hhigh hlow hstatus hsp hregs hmem ⊢
  have hone : t.sp + 1 = s.sp - 2 := by rw [hsp]; bv_omega
  have htwo : t.sp + 2 = s.sp - 1 := by rw [hsp]; bv_omega
  have hthree : t.sp + 3 = s.sp := by rw [hsp, BitVec.sub_add_cancel]
  have hrti := execRti_eq t
  rw [hone, htwo, hthree, hstatus, hlow, hhigh, loadP_pushedP, cat_hiByte_loByte] at hrti
  refine ⟨_, hrti, rfl, rfl, rfl, fun r _ => ?_, hmem⟩
  cases r with
  | sp => rfl
  | a => exact hregs .a (by decide)
  | x => exact hregs .x (by decide)
  | y => exact hregs .y (by decide)

end Sys2Proof.Proofs
end

section
/-! The seven flag instructions as one write of one flag, which is O48; and CLI followed by the IRQ that it unmasks, which
is O19. -/

namespace Sys2Proof.Proofs

open Sys2Proof.Machine Sys2Proof.Laws

/-! ### CLC, SEC, CLI, SEI, CLD, SED and CLV -/

/-- The flag `f` takes the value `b` (R190 to R196). -/
def setFlag (f : Flag) (b : Bool) (s : State) : State :=
  { s with
    p :=
      match f with
      | .c => { s.p with c := b }
      | .z => { s.p with z := b }
      | .i => { s.p with i := b }
      | .d => { s.p with d := b }
      | .v => { s.p with v := b }
      | .n => { s.p with n := b } }

theorem setFlag_flag (f g : Flag) (b : Bool) (s : State) :
    (setFlag f b s).flag g = if g = f then b else s.flag g := by
  cases f <;> cases g <;> rfl

/-- Writing a flag changes that flag only. -/
theorem setFlag_frame (f : Flag) (b : Bool) (s : State) : Frame [] [f] [] s (setFlag f b s) := by
  refine ⟨fun r _ => ?_, fun g hg => ?_, fun _ _ => rfl, ⟨rfl, rfl, rfl, rfl, rfl⟩, rfl⟩
  · cases r <;> rfl
  · rw [setFlag_flag, if_neg (List.ne_of_not_mem_cons hg)]

/-- Settles O48: each of the seven is `setFlag` with the count 2, of the flag and the value that its row names. -/
theorem flagInstructionsWriteOneFlag : Obligations.FlagInstructionsWriteOneFlag := by
  intro s q hq
  obtain ⟨hencode, hexec⟩ :
      encode q.1 = [q.2.1] ∧ exec q.1 s = .next (charge 2 (setFlag q.2.2.1 q.2.2.2 s)) := by
    simp only [List.mem_cons, List.not_mem_nil, or_false] at hq
    rcases hq with rfl | rfl | rfl | rfl | rfl | rfl | rfl <;> exact ⟨rfl, rfl⟩
  have hflag : (setFlag q.2.2.1 q.2.2.2 s).flag q.2.2.1 = q.2.2.2 := by rw [setFlag_flag, if_pos rfl]
  exact ⟨hencode, _, hexec, hflag, rfl, setFlag_frame _ _ s, rfl, (List.append_nil _).symm⟩

/-! ### The IRQ that CLI unmasks -/

/-- At a boundary with no NMI latched, an unmasked IRQ is what the tick serves (R303, R306, R310). -/
theorem dispatch_of_irq {s : State} (hreset : s.resetPending = false) (hzero : s.remaining = 0)
    (hnmi : s.nmiPending = false) (hline : s.irqLine = true) (hunmasked : s.p.i = false) :
    dispatch s = .next (irqSequence { s with bus := [] }) := by
  simp [dispatch, atBoundary, hreset, hzero, hnmi, hline, hunmasked]

/-- The tick that serves it has entered through `0xFFFE` and is still serving the IRQ (R304, R306). -/
theorem step_of_irq {s : State} (hreset : s.resetPending = false) (hzero : s.remaining = 0)
    (hnmi : s.nmiPending = false) (hline : s.irqLine = true) (hunmasked : s.p.i = false) :
    ∃ t, step s = .next t ∧ t.ctl = .servicingIrq ∧ EnteredThrough 0xFFFE#16 false s t := by
  have hentered := enterInterrupt_enteredThrough 0xFFFE#16 false { s with bus := [] } (by decide) (by decide)
  refine ⟨_, step_eq_of_dispatch (dispatch_of_irq hreset hzero hnmi hline hunmasked), ?_⟩
  rw [endTick_eq, irqSequence_eq]
  exact ⟨rfl, hentered⟩

theorem decode_bytesAtPc_of_cli {s : State} (hop : s.mem.read s.pc = 0x58#8) :
    decode s.bytesAtPc = .ok (.cli, [s.mem.read (s.pc + 1), s.mem.read (s.pc + 2)]) := by
  rw [State.bytesAtPc, hop]
  exact encodeThenDecodeGivesTheInstruction .cli _ rfl

/-- The boundary that ends a CLI: `PC` is past it, I is clear, and two cycles have been counted (R192). -/
def afterCli (s : State) : State :=
  { s with
    pc := s.pc + 1
    p := { s.p with i := false }
    remaining := 0
    total := s.total + 1 + 1
    ctl := .running
    bus := [] }

/-- The first tick runs the CLI and the second only counts down (R118, R192). -/
theorem step_step_of_cli {s : State} (hready : s.ReadyToExecute) (hop : s.mem.read s.pc = 0x58#8) :
    ∃ u, step s = .next u ∧ step u = .next (afterCli s) := by
  have hfirst := stepRunsTheDecodedInstruction s .cli _ hready (decode_bytesAtPc_of_cli hop)
  obtain ⟨hreset, -, -, -⟩ := hready
  exact ⟨_, hfirst, countDownTickOnlyCounts _ hreset Nat.one_pos⟩

/-- Settles O19: two ticks end the CLI, with the latches and the IRQ level as they were, and the third serves the IRQ. -/
theorem cliTakesEffectAtTheNextBoundary : Obligations.CliTakesEffectAtTheNextBoundary := by
  intro s hready hline hop
  obtain ⟨u, hfirst, hsecond⟩ := step_step_of_cli hready hop
  obtain ⟨hreset, -, hnmi, -⟩ := hready
  obtain ⟨t, hthird, hctl, hentered⟩ := step_of_irq (s := afterCli s) hreset rfl hnmi hline rfl
  refine ⟨t, ?_, hctl, hentered⟩
  simp only [ticks, hfirst, hsecond, hthird]

end Sys2Proof.Proofs
end

section
/-! The reset state, the step while the IRQ is masked, the RESET sequence, and the two interrupts at a boundary (R301 to
R306); from these O8 and O15 to O18. -/

namespace Sys2Proof.Proofs

open Sys2Proof.Machine Sys2Proof.Laws

/-! ### The reset state -/

/-- Settles O8: the reset state is at a boundary, with no memory listed and no bus access made. -/
theorem resetMeetsTheInvariant : Obligations.ResetMeetsTheInvariant :=
  ⟨Memory.nil_wf, Nat.zero_le 7, fun _ => rfl, Nat.zero_le 6⟩

/-! ### The IRQ level while I is set -/

/-- An instruction with its fetch does not read the IRQ level and passes it on (R38, R101). -/
theorem executeOne_setIrqLine (active : Bool) (s : State) :
    executeOne (setIrqLine active s) = mapNext (setIrqLine active) (executeOne s) :=
  executeOne_withTotalAndLevel id (fun _ => active) s

/-- With I set the tick decides the same way whatever the level is: RESET, the budget, a latched NMI, then an instruction
(R100, R303). -/
theorem dispatch_setIrqLine {s : State} (hmasked : s.p.i = true) (active : Bool) :
    dispatch (setIrqLine active s) = mapNext (setIrqLine active) (dispatch s) := by
  simp only [dispatch, atBoundary, setIrqLine_resetPending, setIrqLine_remaining, setIrqLine_nmiPending, setIrqLine_p,
    hmasked, Bool.not_true, Bool.and_false, Bool.false_eq_true, if_false]
  split_ifs with hreset hboundary hnmi
  · rfl
  · rfl
  · exact executeOne_setIrqLine active { s with ctl := .running, bus := [] }
  · rfl

theorem endTick_comp_setIrqLine (active : Bool) : endTick ∘ setIrqLine active = setIrqLine active ∘ endTick := by
  funext s
  simp only [Function.comp_apply, endTick_eq]
  rfl

/-- Settles O18: the dispatch masks the level, and the count-down does not read it. -/
theorem maskedIrqHasNoEffect : Obligations.MaskedIrqHasNoEffect := by
  intro s active hmasked
  rw [step_eq, step_eq, dispatch_setIrqLine hmasked, mapNext_mapNext, mapNext_mapNext, endTick_comp_setIrqLine]

/-! ### RESET -/

/-- A RESET edge is served by the very next tick, wherever the budget is (R36, R301). -/
theorem dispatch_triggerReset (s : State) :
    dispatch (triggerReset s) = .next (resetSequence { s with bus := [] }) := by
  simp [dispatch, triggerReset, resetSequence_eq]

/-- Settles O15: the tick that serves the RESET loads seven cycles, and the six after it only count down. -/
theorem resetFromAnyState : Obligations.ResetFromAnyState := by
  intro s t
  have hdispatch := dispatch_triggerReset s
  rw [resetSequence_eq] at hdispatch
  have hticks {k : Nat} (hk : 0 < k) (hle : k ≤ 7) := ticks_of_dispatch hk hdispatch rfl hle
  refine ⟨?_, hticks (by decide) (by decide), fun k hk hlt => ⟨_, hticks hk hlt.le, ?_, ?_⟩⟩
  · rw [step_eq_of_dispatch hdispatch, endTick_eq]
    rfl
  · exact beq_eq_false_iff_ne.2 (show 7 - k ≠ 0 by omega)
  · exact if_neg (show 7 - k ≠ 0 by omega)

/-! ### NMI and IRQ -/

/-- What the tick that takes an interrupt leaves: the entry through the vector, the first of its seven cycles counted, and
the controller serving it (R304, R308). -/
theorem endTick_enterInterrupt (vector : Addr) (c : Ctl) (s : State) (hbus : s.bus = [])
    (h : 512 ≤ vector.toNat) (h' : 512 ≤ (vector + 1).toNat) :
    let t := endTick { enterInterrupt vector false s with remaining := 7, ctl := c }
    EnteredThrough vector false s t ∧ t.nmiPending = s.nmiPending ∧ t.irqLine = s.irqLine ∧ t.ctl = c ∧
      t.remaining = 6 ∧ t.bus = entryAccesses vector false s := by
  obtain ⟨-, -, -, ⟨-, -, hnmi, hirq, -⟩, -⟩ := enterInterrupt_frame vector false s
  have haccesses := enterInterrupt_bus vector false s
  rw [hbus] at haccesses
  rw [endTick_eq]
  exact ⟨enterInterrupt_enteredThrough vector false s h h', hnmi, hirq, rfl, rfl, haccesses⟩

/-- At a boundary a latched NMI is what the tick serves, whatever I and the IRQ level are (R305, R310). -/
theorem dispatch_of_nmi {s : State} (hreset : s.resetPending = false) (hzero : s.remaining = 0)
    (hnmi : s.nmiPending = true) : dispatch s = .next (nmiSequence { s with bus := [] }) := by
  simp [dispatch, atBoundary, hreset, hzero, hnmi]

/-- Settles O16: the NMI sequence is an entry with the latch cleared. -/
theorem nmiIsTakenWhateverIIs : Obligations.NmiIsTakenWhateverIIs := by
  intro s hreset hzero hnmi
  exact ⟨_, step_eq_of_dispatch (dispatch_of_nmi hreset hzero hnmi),
    endTick_enterInterrupt 0xFFFA#16 .servicingNmi { s with nmiPending := false, bus := [] } rfl (by decide) (by decide)⟩

/-- Settles O17: the IRQ sequence is an entry that leaves the level alone. -/
theorem irqIsTakenWhenUnmasked : Obligations.IrqIsTakenWhenUnmasked := by
  intro s hreset hzero hnmi hline hunmasked
  obtain ⟨hentered, -, hlevel, hcontrol⟩ :=
    endTick_enterInterrupt 0xFFFE#16 .servicingIrq { s with bus := [] } rfl (by decide) (by decide)
  exact ⟨_, step_eq_of_dispatch (dispatch_of_irq hreset hzero hnmi hline hunmasked), hentered, hlevel.trans hline,
    hcontrol⟩

end Sys2Proof.Proofs
end

section
/-! The transfers and the register increments as one write of one register, AND, ORA and EOR as one write of A, and BIT;
from these O33, O34 and O51 to O53. -/

namespace Sys2Proof.Proofs

open Sys2Proof.Machine Sys2Proof.Laws

/-! ### Transfers, increments and decrements -/

/-- A two-cycle instruction that writes one register with its flags, and makes no bus access (R28, R118). -/
theorem charge_setRegZN (r : Reg) (v : Byte) (s : State) :
    WritesRegZN r v s (charge 2 (setRegZN r v s)) ∧ Spends 2 [] s (charge 2 (setRegZN r v s)) := by
  have hbus : (setRegZN r v s).bus = s.bus := by cases r <;> rfl
  exact ⟨setRegZN_writesRegZN r v s, rfl, hbus.trans (List.append_nil _).symm⟩

/-- Settles O51: each of the five is `setRegZN` with the count 2, of the register and the value that its row names. -/
theorem transfersSetZeroAndNegative : Obligations.TransfersSetZeroAndNegative := by
  intro s q hq
  obtain ⟨hencode, hexec⟩ :
      encode q.1 = [q.2.1] ∧ exec q.1 s = .next (charge 2 (setRegZN q.2.2.1 q.2.2.2 s)) := by
    simp only [List.mem_cons, List.not_mem_nil, or_false] at hq
    rcases hq with rfl | rfl | rfl | rfl | rfl <;> exact ⟨rfl, rfl⟩
  exact ⟨hencode, _, hexec, charge_setRegZN _ _ s⟩

theorem execTxs_eq (s : State) : exec .txs s = .next (charge 2 { s with sp := s.x }) := rfl

/-- Settles O52: TXS writes `S` and leaves the status as it is. -/
theorem txsLeavesTheFlags : Obligations.TxsLeavesTheFlags := by
  intro s
  have hframe : Frame [.sp] [] [] s { s with sp := s.x } :=
    ⟨keepsRegs_sp rfl rfl rfl, keepsFlags_of_p_eq rfl _, fun _ _ => rfl, ⟨rfl, rfl, rfl, rfl, rfl⟩, rfl⟩
  exact ⟨rfl, _, execTxs_eq s, rfl, rfl, hframe, rfl, (List.append_nil _).symm⟩

theorem ofNat_succ_mod (v : Byte) : BitVec.ofNat 8 ((v.toNat + 1) % 256) = v + 1 :=
  BitVec.eq_of_toNat_eq (by simp)

/-- One less is 255 more modulo 256 (R31). -/
theorem ofNat_pred_mod (v : Byte) : BitVec.ofNat 8 ((v.toNat + 255) % 256) = v - 1 :=
  BitVec.eq_of_toNat_eq (by simp [BitVec.toNat_sub, Nat.add_comm])

/-- Settles O53: each of the four is `setRegZN` with the count 2, and its value is the sum or difference modulo 256. -/
theorem registerIncrementsWrap : Obligations.RegisterIncrementsWrap := by
  intro s q hq
  obtain ⟨hencode, hexec⟩ :
      encode q.1 = [q.2.1] ∧ exec q.1 s = .next (charge 2 (setRegZN q.2.2.1 (BitVec.ofNat 8 q.2.2.2) s)) := by
    simp only [List.mem_cons, List.not_mem_nil, or_false] at hq
    rcases hq with rfl | rfl | rfl | rfl <;> simp only [ofNat_succ_mod, ofNat_pred_mod] <;> exact ⟨rfl, rfl⟩
  exact ⟨hencode, _, hexec, charge_setRegZN _ _ s⟩

/-! ### AND, ORA, EOR and BIT -/

/-- A read instruction that writes `A` with a function of `A` and the operand's byte (R119, R240 to R242). -/
theorem logic_writesRegZN (f : Byte → Byte → Byte) (op : ReadOperand) (s : State) :
    ∃ t, readInstr op (fun m u => setRegZN .a (f u.a m) u) s = .next t ∧
      WritesRegZN .a (f s.a (operandValue op s).value) s t :=
  readInstr_writesRegZN op _ s fun b => setRegZN_writesRegZN .a _ { s with bus := b }

/-- Settles O33: the three are one computation, with three bitwise functions. -/
theorem logicWritesA : Obligations.LogicWritesA := fun op s =>
  ⟨logic_writesRegZN (· &&& ·) op s, logic_writesRegZN (· ||| ·) op s, logic_writesRegZN (· ^^^ ·) op s⟩

theorem execBit_eq (m : MemOperand) (s : State) :
    exec (.bit m) s =
      .next (charge (readCycles (.mem m) (operandValue (.mem m) s).cross)
        { s with
          p := bitFlags s.a (operandValue (.mem m) s).value s.p
          bus := s.bus ++ operandReads (.mem m) s }) :=
  readInstr_eq (.mem m) (fun v u => { u with p := bitFlags u.a v u.p }) s

theorem getLsbD_seven_iff (v : Byte) : v.getLsbD 7 = true ↔ 128 ≤ v.toNat := by
  have hv := v.isLt
  rw [← Bool.toNat_eq_one, getLsbD_toNat]
  omega

theorem getLsbD_six_iff (v : Byte) : v.getLsbD 6 = true ↔ 64 ≤ v.toNat % 128 := by
  rw [← Bool.toNat_eq_one, getLsbD_toNat]
  omega

/-- The flags that BIT does not name stay (R243). -/
theorem keepsFlags_of_bitFlags {a m : Byte} {s t : State} (h : t.p = bitFlags a m s.p) :
    KeepsFlags [.z, .v, .n] s t := by
  intro f hf
  cases f with
  | z | v | n => simp at hf
  | c | i | d => simp [State.flag, h]

/-- Settles O34: BIT reads its operand and writes three flags, two of them bits of the byte itself. -/
theorem bitTestsTheMemoryByte : Obligations.BitTestsTheMemoryByte := by
  intro m s v
  refine ⟨_, execBit_eq m s, beq_iff_eq, getLsbD_seven_iff v, getLsbD_six_iff v, rfl,
    fun r _ => ?_, keepsFlags_of_bitFlags rfl, fun _ _ => rfl, ⟨rfl, rfl, rfl, rfl, rfl⟩, rfl⟩
  cases r <;> rfl

end Sys2Proof.Proofs
end

section
/-! JMP in both forms, and the instructions that only pass two cycles; from these O36 and O37. -/

namespace Sys2Proof.Proofs

open Sys2Proof.Machine Sys2Proof.Laws

/-! ### JMP -/

theorem execJmp_abs_eq (a : Addr) (s : State) : exec (.jmp (.abs a)) s = .next (charge 3 { s with pc := a }) := rfl

theorem execJmp_ind_eq (ptr : Addr) (s : State) :
    exec (.jmp (.ind ptr)) s =
      .next (charge 5
        { s with
          pc := cat (s.mem.read (cat (hiByte ptr) (loByte ptr + 1))) (s.mem.read ptr)
          bus := s.bus ++ [.read ptr, .read (cat (hiByte ptr) (loByte ptr + 1))] }) := by
  simp only [exec, execJmp, resolveJump_eq, finish]

/-- The address after a pointer's, within the pointer's own page, as a number (R114). -/
theorem cat_hiByte_loByte_succ (w : Addr) :
    cat (hiByte w) (loByte w + 1) = BitVec.ofNat 16 (w.toNat / 256 * 256 + (w.toNat + 1) % 256) := by
  have hlo : (loByte w + 1).toNat = (w.toNat + 1) % 256 := by simp [loByte_toNat]
  have hw := w.isLt
  apply BitVec.eq_of_toNat_eq
  rw [cat_toNat, hiByte_toNat, hlo, BitVec.toNat_ofNat]
  omega

/-- Settles O36: a jump writes `PC` only, of which a frame does not speak; the pointer's second byte wraps in its page. -/
theorem jumpSetsPc : Obligations.JumpSetsPc := by
  intro w s next
  have hind := execJmp_ind_eq w s
  rw [cat_hiByte_loByte_succ] at hind
  exact ⟨⟨rfl, _, execJmp_abs_eq w s, rfl, frame_refl s, rfl, (List.append_nil _).symm⟩,
    ⟨rfl, _, hind, (cat_toNat _ _).trans (Nat.add_comm _ _), frame_refl s, rfl, rfl⟩⟩

/-! ### NOP and the unofficial bytes -/

/-- The byte alone encodes the instruction, whose meaning is to pass two cycles (R244, R246). -/
structure PassesTwoCycles (opcode : Byte) (i : Instr) : Prop where
  wellFormed : i.wellFormed = true
  encode_eq : encode i = [opcode]
  length_eq : i.length = 1
  exec_eq (s : State) : exec i s = .next { s with remaining := 2 }

theorem nop_passesTwoCycles : PassesTwoCycles 0xEA#8 .nop := ⟨rfl, rfl, rfl, fun _ => rfl⟩

theorem nopUnofficial_passesTwoCycles {b : Byte} (h : b ∈ unofficialOpcodes) :
    PassesTwoCycles b (.nopUnofficial b) := by
  have hb : unofficialOpcodes.contains b = true := List.contains_iff_mem.2 h
  exact ⟨hb, encode_of_opcode (if_pos hb), rfl, fun _ => rfl⟩

theorem PassesTwoCycles.decode_cons {opcode : Byte} {i : Instr} (h : PassesTwoCycles opcode i) (rest : List Byte) :
    decode (opcode :: rest) = .ok (i, rest) := by
  have hdecode := encodeThenDecodeGivesTheInstruction i rest h.wellFormed
  rwa [h.encode_eq] at hdecode

/-- Its step fetches one byte and counts the first of the two cycles (R100, R103). -/
theorem PassesTwoCycles.step_next {i : Instr} {s : State} (h : PassesTwoCycles (s.mem.read s.pc) i)
    (hready : s.ReadyToExecute) :
    step s = .next
      { s with pc := s.pc + 1, remaining := 1, total := s.total + 1, ctl := .running, bus := [.read s.pc] } := by
  rw [stepRunsTheDecodedInstruction s i _ hready (h.decode_cons _), h.exec_eq, h.length_eq, mapNext, endTick_eq]
  simp

theorem unofficialOpcodes_length : unofficialOpcodes.length = 105 := rfl

theorem unofficialOpcodes_nodup : unofficialOpcodes.Nodup := by decide

/-- Settles O37: NOP and each unofficial byte pass two cycles, and what that says of decoder and step is said once. -/
theorem nopsOnlyPassTwoCycles : Obligations.NopsOnlyPassTwoCycles := by
  intro s rest
  refine ⟨unofficialOpcodes_length, unofficialOpcodes_nodup, fun q hq => ?_⟩
  have hpasses : PassesTwoCycles q.1 q.2 := by
    rcases List.mem_cons.1 hq with rfl | hq
    · exact nop_passesTwoCycles
    · obtain ⟨b, hb, rfl⟩ := List.mem_map.1 hq
      exact nopUnofficial_passesTwoCycles hb
  refine ⟨hpasses.decode_cons rest, hpasses.exec_eq s, fun hready hop => ?_⟩
  rw [← hop] at hpasses
  exact hpasses.step_next hready

end Sys2Proof.Proofs
end
